-- ==== Sys2Proof/Word.lean ====
section
/-! DEFINITION. The bit-vector widths of the CRC-16 frame engine (spec/00_scope.md R11, spec/20_memory.md R63). -/

namespace Sys2Proof

/-- A wire or buffer byte: 8 bits, unsigned (R11). -/
abbrev Byte := BitVec 8

/-- A CRC register value: 16 bits (R11, R110). -/
abbrev Half := BitVec 16

/-- A 32-bit host word: a register image or a command word (R62, R63, R95). -/
abbrev Word := BitVec 32

/-- A 9-bit length register (R11). -/
abbrev Len9 := BitVec 9

/-- The 14 offset bits `addr[13:0]` that the block decodes of a host access (R61). -/
abbrev Offset := BitVec 14

end Sys2Proof
end

