-- ==== Sys2Proof/Config.lean ====
section
/-! DEFINITION. What an implementation fixes: the parameters of spec/00_scope.md R10, with the values this hardware
takes, the open base address, and the free values of spec/10_state.md R31. None of this is state (R16). -/

namespace Sys2Proof

/-- The parameters the model takes as arguments (R10), less the base address, which only the platform's decoding
uses (`Config.pBase`). -/
structure Params where
  /-- P_MARKER: the byte that is both the start and the end marker. -/
  marker : Byte
  /-- P_MAX_FRAME_LEN: the capacity in bytes of each of the four buffers (R11). -/
  maxFrameLen : Nat
  /-- P_STRICT_TOTAL_LENGTH: whether VALIDATE refuses bytes after the end marker (R138; 90_conflicts.md C2). -/
  strictTotalLength : Bool
deriving DecidableEq, Repr

/-- The legal range of P_MAX_FRAME_LEN is 6 to 511; any byte is a legal marker and both truth values are legal (R10). -/
abbrev Params.legal (P : Params) : Prop := 6 ≤ P.maxFrameLen ∧ P.maxFrameLen ≤ 511

/-- MAX_PAYLOAD_LEN = min(P_MAX_FRAME_LEN − 6, 255), derived (R10). -/
def Params.maxPayloadLen (P : Params) : Nat := min (P.maxFrameLen - 6) 255

namespace Config

/-- The values this hardware takes (R10): P_MARKER = 0x7E, P_MAX_FRAME_LEN = 258, P_STRICT_TOTAL_LENGTH = false.
Log entry 7. -/
def hw : Params := ⟨0x7E#8, 258, false⟩

/-- FREE VALUE (log entry 4). `freeByte k` is the k-th draw of a buffer byte that nothing has written since reset
(R31: "a fresh arbitrary draw at each read"). It has no body: no proof can use a value of it. -/
opaque freeByte : Nat → Byte

/-- FREE VALUE (log entry 8). The platform's choice of the 16 KiB-aligned place of the block, in units of 16 KiB. -/
opaque baseBlock : Nat

/-- P_BASE: OPEN, any 16 KiB-aligned address (R10, R60). -/
def pBase : Nat := 0x4000 * baseBlock

end Config
end Sys2Proof
end

