-- ==== Sys2Proof/Machine/Crc.lean ====
section
/-! DEFINITION. The CRC function shared by the command unit and the frame synchroniser (spec/40_checksum.md R110 to
R112; spec/00_scope.md R3). -/

namespace Sys2Proof.Machine

/-- CRC_POLY (R9). -/
def crcPoly : Half := 0x1021#16

/-- CRC_INIT (R9). -/
def crcInit : Half := 0xFFFF#16

/-- One round (R111): shift left one bit, and XOR with the polynomial where the top bit was set; 16 bits are kept. -/
def crcRound (r : Half) : Half :=
  if r.getLsbD 15 then (r <<< 1) ^^^ crcPoly else r <<< 1

/-- `n` rounds. -/
def crcRounds : Nat → Half → Half
  | 0, r => r
  | n + 1, r => crcRounds n (crcRound r)

/-- One byte (R111): XOR it into the high 8 bits of the register, then 8 rounds. -/
def crcByte (r : Half) (b : Byte) : Half :=
  crcRounds 8 (r ^^^ ((b.setWidth 16) <<< 8))

/-- `crc16(init, s)` (R111): the bytes in sequence order; no final XOR and no reflection (R110). -/
def crc16 (init : Half) (s : List Byte) : Half :=
  s.foldl crcByte init

end Sys2Proof.Machine
end

