-- ==== Sys2Proof/Machine/Frame.lean ====
section
/-! DEFINITION. The wire frame (spec/30_encoding.md R90; spec/00_scope.md R9): the layout constants and the accessors of
a candidate buffer, shared by the encoder, the validator and the frame synchroniser (R3). -/

namespace Sys2Proof.Machine

/-- HDR_LEN (R9). -/
def hdrLen : Nat := 3

/-- CRC_LEN (R9). -/
def crcLen : Nat := 2

/-- FTR_LEN (R9). -/
def ftrLen : Nat := 1

/-- MIN_FRAME_LEN (R9). -/
def minFrameLen : Nat := 6

/-- The required total length of a frame with declared length L, `6 + L` (R17). -/
def frameLen (L : Nat) : Nat := hdrLen + L + crcLen + ftrLen

/-- The CRC high byte, bits [15:8] (R69). -/
def crcHi (c : Half) : Byte := c.extractLsb' 8 8

/-- The CRC low byte, bits [7:0] (R69). -/
def crcLo (c : Half) : Byte := c.extractLsb' 0 8

/-- `frame(id, p)` (R90): the frame of identifier `ident` and payload `p`, at most 255 bytes long. -/
def frame (P : Params) (ident : Byte) (p : List Byte) : List Byte :=
  [P.marker, ident, BitVec.ofNat 8 p.length] ++ p ++
    [crcHi (crc16 crcInit p), crcLo (crc16 crcInit p), P.marker]

/-- `s[i]`. Every use is at an index the checks before it put inside `s` (R139, R142); the 0 is never read there. -/
def byteAt (s : List Byte) (i : Nat) : Byte := s.getD i 0#8

/-- The declared length: byte 2 of a buffer (R17). -/
def declaredLen (s : List Byte) : Nat := (byteAt s 2).toNat

/-- The payload window `s[3..3+L)` of a buffer whose byte 2 holds L (R17). -/
def payloadOf (s : List Byte) : List Byte := (s.drop hdrLen).take (declaredLen s)

/-- The received CRC, big-endian in bytes 3+L and 4+L (R69, R137). -/
def receivedCrc (s : List Byte) : Half :=
  ((byteAt s (hdrLen + declaredLen s)).setWidth 16 <<< 8) |||
    (byteAt s (hdrLen + declaredLen s + 1)).setWidth 16

end Sys2Proof.Machine
end

