-- ==== Sys2Proof/Machine/Memory.lean ====
section
/-! DEFINITION. A byte buffer as plain data: a list of (index, byte) cells in one canonical form, indices strictly
rising (spec/10_state.md R29). A cell that is not listed is a byte that nothing has written since reset (R31): it has no
value of its own, so no listed cell can equal what an unlisted one reads as. -/

namespace Sys2Proof.Machine

/-- The written bytes of a buffer, by index from 0 (R29). -/
abbrev Memory := List Host.Cell

/-- The canonical form: indices strictly rising. -/
abbrev Memory.wf (m : Memory) : Prop := List.Pairwise (fun x y : Host.Cell => x.1 < y.1) m

/-- The byte an index last held, or none where nothing has been written since reset (R30, R31). -/
def Memory.read? : Memory → Nat → Option Byte
  | [], _ => none
  | c :: m, i => if c.1 = i then some c.2 else Memory.read? m i

/-- Write one byte, keeping the canonical form. -/
def Memory.write : Memory → Nat → Byte → Memory
  | [], i, v => [(i, v)]
  | c :: m, i, v =>
    if i < c.1 then (i, v) :: c :: m
    else if i = c.1 then (i, v) :: m
    else c :: Memory.write m i v

/-- Write a byte sequence at rising indices from `i`. -/
def Memory.writeBytes : Memory → Nat → List Byte → Memory
  | m, _, [] => m
  | m, i, b :: bs => Memory.writeBytes (Memory.write m i b) (i + 1) bs

/-- The buffer holds the byte sequence `bs` from index `i` on, every byte of it written since reset. -/
abbrev Memory.holds (m : Memory) (i : Nat) (bs : List Byte) : Prop :=
  ∀ j, j < bs.length → Memory.read? m (i + j) = bs[j]?

/-- The indices 0 to n − 1 have all been written since reset. -/
abbrev Memory.covers (m : Memory) (n : Nat) : Prop :=
  ∀ j, j < n → (Memory.read? m j).isSome = true

/-- No byte stands at an index of `n` or more (the buffer's capacity, R29). -/
abbrev Memory.within (m : Memory) (n : Nat) : Prop :=
  ∀ c ∈ m, c.1 < n

/-- One byte read with `k` draws made so far: the byte held, or the fresh draw number `k` where nothing has been
written since reset (R31). With the byte comes the number of draws made after it. -/
def Memory.readByte (m : Memory) (i k : Nat) : Byte × Nat :=
  match Memory.read? m i with
  | some b => (b, k)
  | none => (Config.freeByte k, k + 1)

/-- The slice of `n` bytes from index `i`, each byte read once, in index order (R12 `s[a..b)`; log entry 5), and the
number of draws made after it. -/
def Memory.readRange (m : Memory) : Nat → Nat → Nat → List Byte × Nat
  | _, 0, k => ([], k)
  | i, n + 1, k =>
    let d := Memory.readByte m i k
    let r := Memory.readRange m (i + 1) n d.2
    (d.1 :: r.1, r.2)

end Sys2Proof.Machine
end

