-- ==== Sys2Proof/Machine/State.lean ====
section
/-! DEFINITION. The state of the CRC-16 frame engine (spec/10_state.md R20 to R37), with the inputs still to arrive from
the three agents (spec/00_scope.md R15), the reasons a step can stop, and the state after reset. All plain data. -/

namespace Sys2Proof.Machine

/-- The outcome of validating or encoding, the source's closed `ValidationOutcome` set (R14, R102). -/
inductive ValidationOutcome where
  | valid
  | schemaError
  | lengthError
  | crcError
  | unknownError
deriving DecidableEq, Repr

/-- The validator's states, a closed enumeration (R14, R103, R130). `final` is the source's END. -/
inductive ValidatorState where
  | start
  | identifier
  | length
  | payload
  | crc
  | final
  | complete
deriving DecidableEq, Repr

/-- The result of the last frame-synchroniser step (R104). -/
inductive FrResult where
  | none
  | pending
  | frame
  | error
deriving DecidableEq, Repr

/-- The fields of STATUS (R23). Its reserved bits read 0 and have no storage. -/
structure StatusReg where
  /-- OUTCOME, bits [2:0]. -/
  outcome : ValidationOutcome
  /-- VSTATE, bits [6:4]. -/
  vstate : ValidatorState
  /-- VRAN, bit [7]. -/
  vran : Bool
  /-- DONE, bit [8]. -/
  done : Bool
  /-- LASTOP, bits [15:12]. -/
  lastop : BitVec 4
deriving DecidableEq, Repr

/-- The fields of FR_STATUS (R26). -/
structure FrStatusReg where
  /-- RESULT, bits [1:0]. -/
  result : FrResult
  /-- FOUTCOME, bits [6:4]. -/
  foutcome : ValidationOutcome
  /-- FAVAIL, bit [8], sticky. -/
  favail : Bool
  /-- OVERRUN, bit [9], sticky. -/
  overrun : Bool
  /-- FERR, bit [10], sticky. -/
  ferr : Bool
  /-- FLEN, bits [24:16]: the number of bytes in the accumulation buffer. -/
  flen : Len9
deriving DecidableEq, Repr

/-- The fields of RXP_INFO (R27). -/
structure RxpInfoReg where
  /-- PLEN, bits [7:0]. -/
  plen : Byte
  /-- PID, bits [15:8]. -/
  pid : Byte
deriving DecidableEq, Repr

/-- Where a host access points: an offset in the block's window, as the platform's decoding hands it to the block
(R60, R61), or the host's own address, which is P_BASE plus an offset (R13) or lies outside the window. -/
inductive BusAddr where
  | offset (off : Offset)
  | absolute (addr : Nat)
deriving DecidableEq, Repr

/-- What the block answers on the bus to a host access. -/
inductive BusResponse where
  /-- The word a read returns (R64 to R67). -/
  | readData (v : Word)
  /-- A write completed without an error response (R67: also a write that is ignored). -/
  | writeDone
  /-- The error response `BusError(off)` (R63, R214). -/
  | busError (off : Offset)
deriving DecidableEq, Repr

/-- One step of one of the three agents (R15): a host read or write of a width in bits, a byte on the receive port, or
reset. -/
inductive Event where
  | hostRead (width : Nat) (at_ : BusAddr)
  | hostWrite (width : Nat) (at_ : BusAddr) (value : Word)
  | portByte (b : Byte)
  | reset
deriving DecidableEq, Repr

/-- The machine's state. The first nine fields are the spec's (R23 to R29); `draws`, `inputs` and `response` are the
model's own (log entries 4, 1, 3). -/
structure State where
  /-- STATUS (R23). -/
  status : StatusReg
  /-- CRC.CRCVAL (R24). -/
  crcVal : Half
  /-- OBUF_LEN.LEN (R25). -/
  obufLen : Len9
  /-- FR_STATUS (R26). -/
  fr : FrStatusReg
  /-- RXP_INFO (R27). -/
  rxpInfo : RxpInfoReg
  /-- IBUF (R29). -/
  ibuf : Memory
  /-- OBUF (R29). -/
  obuf : Memory
  /-- RXP (R29). -/
  rxp : Memory
  /-- FBUF, hidden (R29, R32). -/
  fbuf : Memory
  /-- MODEL'S OWN: how many draws of never-written bytes have been made. -/
  draws : Nat
  /-- MODEL'S OWN: the agents' steps still to come, in the total order of R73, the next one first. -/
  inputs : List Event
  /-- MODEL'S OWN: what the last host access got back from the block, `none` where it got nothing. -/
  response : Option BusResponse
deriving DecidableEq, Repr

/-- The reasons a step can stop with a fault: there are none. "The block raises no trap, exception or abort for any
command or any received byte" (R210), and a bus access that is not a 32-bit access at a 4-aligned offset completes with
an error response (R214), which is the `busError` response here and no fault. No step raises a fault; that is safe,
since every failure the spec describes is reported in a next state. -/
inductive Fault
deriving DecidableEq, Repr

/-- The reasons a step can be refused. -/
inductive Refusal where
  /-- Raised by an arm of `exec` for a command that has no meaning yet; no arm of this model raises it. Safe: the
  machine stops where the hardware goes on. -/
  | notModelled (mnemonic : String)
deriving DecidableEq, Repr

/-- The machine right after reset (R37, R230): STATUS 0, CRC 0xFFFF, OBUF_LEN 0, FR_STATUS 0, RXP_INFO 0, and no
buffer byte written (R31: buffer contents are UNSPECIFIED). The model's own fields: no draw made, no agent's step
waiting, no bus access answered (log entries 4, 1, 3). -/
def State.reset : State where
  status := ⟨.valid, .start, false, false, 0x0#4⟩
  crcVal := 0xFFFF#16
  obufLen := 0#9
  fr := ⟨.none, .valid, false, false, false, 0#9⟩
  rxpInfo := ⟨0#8, 0#8⟩
  ibuf := []
  obuf := []
  rxp := []
  fbuf := []
  draws := 0
  inputs := []
  response := none

end Sys2Proof.Machine
end

