-- ==== Sys2Proof/Machine/Validator.lean ====
section
/-! DEFINITION. The packet validator (spec/41_validator.md R130 to R139): the function `validate` of R131, which the
commands use, and the state machine of R130 with an explicit transition function. -/

namespace Sys2Proof.Machine

/-- What `validate` returns (R131): the classification, whether the state machine was entered, the state in which it
stopped, and the checksum it computed, if it reached the CRC comparison. -/
structure ValidateResult where
  outcome : ValidationOutcome
  ran : Bool
  stop : ValidatorState
  crc : Option Half
deriving DecidableEq, Repr

/-- `validate(s)` (R131). The checks stand in the order START, IDENTIFIER, LENGTH, PAYLOAD, CRC, END, COMPLETE; the
first that fails decides (R141). The CRC step's length test is kept as written, though no input reaches it (R142). -/
def validate (P : Params) (s : List Byte) : ValidateResult :=
  let n := s.length
  let L := declaredLen s
  let c := crc16 crcInit (payloadOf s)
  if n < minFrameLen then ⟨.schemaError, false, .start, none⟩
  else if byteAt s 0 ≠ P.marker then ⟨.schemaError, true, .start, none⟩
  else if byteAt s 1 = P.marker then ⟨.schemaError, true, .identifier, none⟩
  else if frameLen L > n then ⟨.lengthError, true, .length, none⟩
  else if P.marker ∈ payloadOf s then ⟨.lengthError, true, .payload, none⟩
  else if n - (hdrLen + L) < crcLen then ⟨.schemaError, true, .crc, none⟩
  else if receivedCrc s ≠ c then ⟨.crcError, true, .crc, some c⟩
  else if byteAt s (hdrLen + L + crcLen) ≠ P.marker then ⟨.schemaError, true, .final, some c⟩
  else if P.strictTotalLength = true ∧ n ≠ frameLen L then ⟨.lengthError, true, .complete, some c⟩
  else ⟨.valid, true, .complete, some c⟩

/-- One transition of the state machine (R130): on to the next state with the checksum computed so far, or a stop with
an outcome. -/
inductive FsmMove where
  | advance (next : ValidatorState) (crc : Option Half)
  | stop (r : ValidateResult)
deriving DecidableEq, Repr

/-- The transition function of the state machine over the buffer `s` (R133 to R138), `c` being the checksum computed
so far. The states are a closed enumeration, so the source's "unrecognized state" has no value here (R139; log entry
10). -/
def fsmTransition (P : Params) (s : List Byte) (c : Option Half) : ValidatorState → FsmMove
  | .start =>
    if byteAt s 0 ≠ P.marker then .stop ⟨.schemaError, true, .start, c⟩ else .advance .identifier c
  | .identifier =>
    if byteAt s 1 = P.marker then .stop ⟨.schemaError, true, .identifier, c⟩ else .advance .length c
  | .length =>
    if frameLen (declaredLen s) > s.length then .stop ⟨.lengthError, true, .length, c⟩ else .advance .payload c
  | .payload =>
    if P.marker ∈ payloadOf s then .stop ⟨.lengthError, true, .payload, c⟩ else .advance .crc c
  | .crc =>
    if s.length - (hdrLen + declaredLen s) < crcLen then .stop ⟨.schemaError, true, .crc, c⟩
    else if receivedCrc s ≠ crc16 crcInit (payloadOf s) then
      .stop ⟨.crcError, true, .crc, some (crc16 crcInit (payloadOf s))⟩
    else .advance .final (some (crc16 crcInit (payloadOf s)))
  | .final =>
    if byteAt s (hdrLen + declaredLen s + crcLen) ≠ P.marker then .stop ⟨.schemaError, true, .final, c⟩
    else .advance .complete c
  | .complete =>
    if P.strictTotalLength = true ∧ s.length ≠ frameLen (declaredLen s) then
      .stop ⟨.lengthError, true, .complete, c⟩
    else .stop ⟨.valid, true, .complete, c⟩

/-- Run the state machine from a state for at most `fuel` transitions; `none` where it has not stopped by then. -/
def fsmRun (P : Params) (s : List Byte) : Nat → ValidatorState → Option Half → Option ValidateResult
  | 0, _, _ => none
  | fuel + 1, q, c =>
    match fsmTransition P s c q with
    | .advance q' c' => fsmRun P s fuel q' c'
    | .stop r => some r

/-- The validator as the state machine of R130: the pre-check of R132, then a run from START. Seven transitions are
enough, one per state, since no state is visited twice. -/
def validateByFsm (P : Params) (s : List Byte) : Option ValidateResult :=
  if s.length < minFrameLen then some ⟨.schemaError, false, .start, none⟩
  else fsmRun P s 7 .start none

end Sys2Proof.Machine
end

