-- ==== Sys2Proof/Machine/Flags.lean ====
section
/-! DEFINITION. Every flag computation and every register image: the code tables (spec/30_encoding.md R102 to R104),
what each operation leaves in STATUS and FR_STATUS (spec/10_state.md R35), and the 32-bit words a host reads
(R23 to R28). -/

namespace Sys2Proof.Machine

/-- The 3-bit outcome codes (R102); codes 5 to 7 are never produced. -/
def ValidationOutcome.code : ValidationOutcome → BitVec 3
  | .valid => 0#3
  | .schemaError => 1#3
  | .lengthError => 2#3
  | .crcError => 3#3
  | .unknownError => 4#3

/-- The 3-bit validator-state codes (R103); code 7 is no state. -/
def ValidatorState.code : ValidatorState → BitVec 3
  | .start => 0#3
  | .identifier => 1#3
  | .length => 2#3
  | .payload => 3#3
  | .crc => 4#3
  | .final => 5#3
  | .complete => 6#3

/-- The 2-bit frame-synchroniser result codes (R104). -/
def FrResult.code : FrResult → BitVec 2
  | .none => 0#2
  | .pending => 1#2
  | .frame => 2#2
  | .error => 3#2

/-- STATUS after a command-unit command that did not enter the validator's state machine:
`{OUTCOME: o, VRAN: 0, VSTATE: 0, DONE: 1, LASTOP: op}` (R99, R113, R140, R161). -/
def reportOf (op : BitVec 4) (o : ValidationOutcome) : StatusReg := ⟨o, .start, false, true, op⟩

/-- STATUS after VALIDATE ran the validator: `{OUTCOME: o, VRAN: ran, VSTATE: stop, DONE: 1, LASTOP: 0x2}` (R140). -/
def reportOfValidate (r : ValidateResult) : StatusReg := ⟨r.outcome, r.stop, r.ran, true, 0x2#4⟩

/-- FR_STATUS after a FRAME result (R184): FAVAIL set, OVERRUN set too where FAVAIL was already 1, the accumulation
emptied. -/
def FrStatusReg.delivered (f : FrStatusReg) : FrStatusReg :=
  { f with result := .frame, foutcome := .valid, favail := true, overrun := f.overrun || f.favail, flen := 0#9 }

/-- FR_STATUS after an ERROR result with outcome `o` (R185, R186): FERR set, the accumulation emptied. -/
def FrStatusReg.failed (f : FrStatusReg) (o : ValidationOutcome) : FrStatusReg :=
  { f with result := .error, foutcome := o, ferr := true, flen := 0#9 }

/-- FR_STATUS after a push that neither triggers nor overflows, with `n` bytes now accumulated (R181). -/
def FrStatusReg.accumulated (f : FrStatusReg) (n : Nat) : FrStatusReg :=
  { f with result := .pending, flen := BitVec.ofNat 9 n }

/-- FR_STATUS after FACK (R188): the sticky flags are cleared. -/
def FrStatusReg.acknowledged (f : FrStatusReg) : FrStatusReg :=
  { f with favail := false, overrun := false, ferr := false }

/-- FR_STATUS after FCLEAR (R189). -/
def FrStatusReg.cleared (f : FrStatusReg) : FrStatusReg :=
  { f with result := .none, flen := 0#9 }

/-- The word a host reads from STATUS (R23), from bit 31 down; reserved bits read 0. -/
def StatusReg.image (r : StatusReg) : Word :=
  0#16 ++ r.lastop ++ 0#3 ++ BitVec.ofBool r.done ++ BitVec.ofBool r.vran ++ r.vstate.code ++ 0#1 ++ r.outcome.code

/-- The word a host reads from CRC (R24). -/
def crcImage (c : Half) : Word := 0#16 ++ c

/-- The word a host reads from OBUF_LEN (R25). -/
def obufLenImage (n : Len9) : Word := 0#23 ++ n

/-- The word a host reads from FR_STATUS (R26), from bit 31 down; reserved bits read 0. -/
def FrStatusReg.image (f : FrStatusReg) : Word :=
  0#7 ++ f.flen ++ 0#5 ++ BitVec.ofBool f.ferr ++ BitVec.ofBool f.overrun ++ BitVec.ofBool f.favail ++ 0#1 ++
    f.foutcome.code ++ 0#2 ++ f.result.code

/-- The word a host reads from RXP_INFO (R27). -/
def RxpInfoReg.image (r : RxpInfoReg) : Word := 0#16 ++ r.pid ++ r.plen

/-- The word a host reads from PARAM (R28), a constant image of the parameters. -/
def paramImage (P : Params) : Word :=
  BitVec.ofBool P.strictTotalLength ++ 0#6 ++ BitVec.ofNat 9 P.maxFrameLen ++ 0#8 ++ P.marker

end Sys2Proof.Machine
end

