-- ==== Sys2Proof/Machine/Operands.lean ====
section
/-! DEFINITION. The operand forms of the commands: the input buffer, present or absent, and its length
(spec/30_encoding.md R96), the CRC's initial value (spec/40_checksum.md R113), and the argument checks that make a
command a caller-contract violation (spec/60_exceptions.md R212). No command has an address operand: block data come
from IBUF at index 0. -/

namespace Sys2Proof.Machine

/-- The input operand `IBUF[0..len)` and the number of draws made after it is read (R96, R31). -/
def inputSlice (len : Nat) (s : State) : List Byte × Nat := s.ibuf.readRange 0 len s.draws

/-- CHECKSUM's initial register value: CRC.CRCVAL where CHAIN = 1, else 0xFFFF (R113). -/
def checksumInit (chain : Bool) (s : State) : Half := if chain then s.crcVal else 0xFFFF#16

/-- CHECKSUM names bytes that IBUF does not hold (R113, R212); an absent input (PABS = 1) is never an error. -/
def checksumRefusesArgs (P : Params) (len : Nat) (pabs : Bool) : Bool := !pabs && decide (len > P.maxFrameLen)

/-- VALIDATE's buffer is absent, or longer than IBUF (R140, R212). -/
def validateRefusesArgs (P : Params) (len : Nat) (pabs : Bool) : Bool := pabs || decide (len > P.maxFrameLen)

/-- ENCODE's destination is absent, or its payload is absent with a positive length, or too long for a frame
(R161, R212). -/
def encodeRefusesArgs (P : Params) (len : Nat) (pabs dabs : Bool) : Bool :=
  dabs || (decide (len > 0) && pabs) || decide (len > P.maxPayloadLen)

end Sys2Proof.Machine
end

