-- ==== Sys2Proof/Machine/Ops.lean ====
section
/-! DEFINITION. The named operations the commands and the agents' steps share, each taking the parameters as an argument
(spec/00_scope.md R10). The block takes no exception and returns from none (spec/60_exceptions.md R210, R217, R218): its
one shared way of failing is an outcome in a report, `State.report` for the command unit and `push`'s ERROR result for
the frame synchroniser. -/

namespace Sys2Proof.Machine

/-- A command-unit command that did not enter the validator's state machine reports outcome `o` in STATUS and changes
nothing else (R99, R113, R140, R161). -/
def State.report (s : State) (op : BitVec 4) (o : ValidationOutcome) : State :=
  { s with status := reportOf op o }

/-- CHECKSUM as R113 gives it. -/
def checksumCommand (P : Params) (len : Nat) (pabs chain : Bool) (s : State) : State :=
  let init := checksumInit chain s
  if pabs then { s with crcVal := init, status := reportOf 0x1#4 .valid }
  else if len > P.maxFrameLen then s.report 0x1#4 .unknownError
  else
    let d := inputSlice len s
    { s with crcVal := crc16 init d.1, draws := d.2, status := reportOf 0x1#4 .valid }

/-- VALIDATE as R140 gives it: CRC is written where the state machine computed the checksum. -/
def validateCommand (P : Params) (len : Nat) (pabs : Bool) (s : State) : State :=
  if validateRefusesArgs P len pabs then s.report 0x2#4 .unknownError
  else
    let d := inputSlice len s
    let r := validate P d.1
    { s with crcVal := r.crc.getD s.crcVal, draws := d.2, status := reportOfValidate r }

/-- OBUF after a successful ENCODE (R161): header, payload, big-endian CRC and footer written in place, every other
byte kept (R30). -/
def encodeInto (P : Params) (obuf : Memory) (ident : Byte) (p : List Byte) : Memory :=
  let c := crc16 crcInit p
  let header := ((obuf.write 0 P.marker).write 1 ident).write 2 (BitVec.ofNat 8 p.length)
  let body := header.writeBytes hdrLen p
  ((body.write (hdrLen + p.length) (crcHi c)).write (hdrLen + p.length + 1) (crcLo c)).write
    (hdrLen + p.length + crcLen) P.marker

/-- ENCODE as R161 gives it. The payload slice has `len` bytes, so `len[7:0]` is its length's low byte. -/
def encodeCommand (P : Params) (ident : Byte) (len : Nat) (pabs dabs : Bool) (s : State) : State :=
  if encodeRefusesArgs P len pabs dabs then s.report 0x3#4 .unknownError
  else
    let d := inputSlice len s
    { s with
      obuf := encodeInto P s.obuf ident d.1
      obufLen := BitVec.ofNat 9 (frameLen len)
      crcVal := crc16 crcInit d.1
      draws := d.2
      status := reportOf 0x3#4 .valid }

/-- The byte `b` is a trigger when it brings the accumulation to `n` bytes (R183). -/
def triggers (P : Params) (b : Byte) (n : Nat) : Bool := b == P.marker && decide (n ≥ minFrameLen)

/-- A FRAME result for the candidate buffer `f` (R184): the payload goes to RXP, its length and the identifier to
RXP_INFO, and the accumulation is emptied. -/
def deliver (f : List Byte) (s : State) : State :=
  { s with
    rxp := s.rxp.writeBytes 0 (payloadOf f)
    rxpInfo := ⟨byteAt f 2, byteAt f 1⟩
    fr := s.fr.delivered }

/-- A trigger (R181): the validator classifies the whole accumulation of `n` bytes, which is discarded either way. -/
def trigger (P : Params) (n : Nat) (s : State) : State :=
  let d := s.fbuf.readRange 0 n s.draws
  let o := (validate P d.1).outcome
  if o = .valid then { deliver d.1 s with draws := d.2 }
  else { s with fr := s.fr.failed o, draws := d.2 }

/-- `push(b)` (R181): one step of the frame synchroniser. A trigger takes precedence over an overflow (R186, R216). -/
def push (P : Params) (b : Byte) (s : State) : State :=
  let n := s.fr.flen.toNat + 1
  let s1 := { s with fbuf := s.fbuf.write s.fr.flen.toNat b }
  if triggers P b n then trigger P n s1
  else if n = P.maxFrameLen then { s1 with fr := s.fr.failed .lengthError }
  else { s1 with fr := s.fr.accumulated n }

/-- The bytes of a stream pushed one after the other. -/
def pushAll (P : Params) (bs : List Byte) (s : State) : State :=
  bs.foldl (fun t b => push P b t) s

/-- The Reset agent's step (R230): every register takes its reset value and no buffer byte counts as written. What the
block does not hold stays: the steps still to come, the last bus response, and the count of draws, so that later draws
are fresh (log entry 14). -/
def resetBlock (s : State) : State :=
  { State.reset with draws := s.draws, inputs := s.inputs, response := s.response }

end Sys2Proof.Machine
end

