-- ==== Sys2Proof/Machine/Bus.lean ====
section
/-! DEFINITION. The host bus (spec/20_memory.md R60 to R68): the platform's decoding, the access check, the register map,
and what a read returns and a write other than one to CMD does. -/

namespace Sys2Proof.Machine

/-- The size of the block's window, 16 KiB (R60). -/
def windowSize : Nat := 0x4000

/-- The offset in the window at `base` of a host address; none outside the window (R61). -/
def windowOffset (base addr : Nat) : Option Offset :=
  if base ≤ addr ∧ addr < base + windowSize then some (BitVec.ofNat 14 addr) else none

/-- The offset at which a host access reaches the block, with the block at P_BASE (R13, R60, R61). -/
def BusAddr.reaches : BusAddr → Option Offset
  | .offset off => some off
  | .absolute addr => windowOffset Config.pBase addr

/-- Only a 32-bit access at an offset that is a multiple of 4 is no BusError (R63). -/
def legalAccess (width : Nat) (off : Offset) : Bool := width == 32 && off.extractLsb' 0 2 == 0#2

/-- The entries of the register map (R62). -/
inductive Place where
  | cmd
  | status
  | crc
  | obufLen
  | frStatus
  | rxpInfo
  | param
  | reserved
  | ibuf (i : Nat)
  | obuf (i : Nat)
  | rxp (i : Nat)
deriving DecidableEq, Repr

/-- The register map (R62), for a 4-aligned offset. -/
def placeAt (off : Offset) : Place :=
  let a := off.toNat
  if a < 0x1000 then
    if a = 0x0000 then .cmd
    else if a = 0x0004 then .status
    else if a = 0x0008 then .crc
    else if a = 0x000C then .obufLen
    else if a = 0x0010 then .frStatus
    else if a = 0x0014 then .rxpInfo
    else if a = 0x0018 then .param
    else .reserved
  else if a < 0x2000 then .ibuf ((a - 0x1000) / 4)
  else if a < 0x3000 then .obuf ((a - 0x2000) / 4)
  else .rxp ((a - 0x3000) / 4)

/-- A read of byte `i` of a buffer window (R64, R65): the byte, zero-extended, or 0 beyond the capacity; with it the
number of draws made after it (R31). -/
def readWindow (P : Params) (m : Memory) (i k : Nat) : Word × Nat :=
  if i < P.maxFrameLen then ((m.readByte i k).1.setWidth 32, (m.readByte i k).2) else (0#32, k)

/-- What a read of an entry returns, and the number of draws made after it (R22 to R28, R64, R65, R67). -/
def readPlace (P : Params) (s : State) : Place → Word × Nat
  | .cmd => (0#32, s.draws)
  | .status => (s.status.image, s.draws)
  | .crc => (crcImage s.crcVal, s.draws)
  | .obufLen => (obufLenImage s.obufLen, s.draws)
  | .frStatus => (s.fr.image, s.draws)
  | .rxpInfo => (s.rxpInfo.image, s.draws)
  | .param => (paramImage P, s.draws)
  | .reserved => (0#32, s.draws)
  | .ibuf i => readWindow P s.ibuf i s.draws
  | .obuf i => readWindow P s.obuf i s.draws
  | .rxp i => readWindow P s.rxp i s.draws

/-- What a write of a word to an entry does, for every entry but CMD, whose write runs a command (R66): IBUF keeps the
low byte, every other write is ignored (R64, R65, R67). -/
def writePlace (P : Params) (v : Word) (s : State) : Place → State
  | .cmd => s
  | .status => s
  | .crc => s
  | .obufLen => s
  | .frStatus => s
  | .rxpInfo => s
  | .param => s
  | .reserved => s
  | .ibuf i => if i < P.maxFrameLen then { s with ibuf := s.ibuf.write i (v.setWidth 8) } else s
  | .obuf _ => s
  | .rxp _ => s

end Sys2Proof.Machine
end

