-- ==== Sys2Proof/Syntax.lean ====
section
/-! DEFINITION. The command set: one constructor per row of spec/opcode_table.json (spec/30_encoding.md R97).
The block's "instructions" are the commands a host writes to CMD (spec/00_scope.md R2). -/

namespace Sys2Proof

/-- The commands, with the operands of R96: unsigned numbers taken from the command word. A length is a count, so a
`Nat`; that it fits the 9-bit LEN field is `Instr.wellFormed`. The fields an opcode does not use are no operands (R98). -/
inductive Instr where
  /-- OPC 0x0, reserved (R99). -/
  | rsvd0
  /-- OPC 0x1 CHECKSUM: LEN, PABS, CHAIN (R113). -/
  | checksum (len : Nat) (pabs : Bool) (chain : Bool)
  /-- OPC 0x2 VALIDATE: LEN, PABS (R140). -/
  | validate (len : Nat) (pabs : Bool)
  /-- OPC 0x3 ENCODE: ID, LEN, PABS, DABS (R161). -/
  | encode (ident : Byte) (len : Nat) (pabs : Bool) (dabs : Bool)
  /-- OPC 0x4 FPUSH: the byte to push stands in the ID field (R187). -/
  | fpush (b : Byte)
  /-- OPC 0x5 FCLEAR (R189). -/
  | fclear
  /-- OPC 0x6 FACK (R188). -/
  | fack
  /-- OPC 0x7, reserved (R99). -/
  | rsvd7
  /-- OPC 0x8, reserved (R99). -/
  | rsvd8
  /-- OPC 0x9, reserved (R99). -/
  | rsvd9
  /-- OPC 0xA, reserved (R99). -/
  | rsvdA
  /-- OPC 0xB, reserved (R99). -/
  | rsvdB
  /-- OPC 0xC, reserved (R99). -/
  | rsvdC
  /-- OPC 0xD, reserved (R99). -/
  | rsvdD
  /-- OPC 0xE, reserved (R99). -/
  | rsvdE
  /-- OPC 0xF, reserved (R99). -/
  | rsvdF
deriving DecidableEq, Repr

end Sys2Proof
end

