-- ==== Sys2Proof/WellFormed.lean ====
section
/-! DEFINITION. Which command terms the command word can carry: LEN is a 9-bit field, range 0 to 511
(spec/30_encoding.md R95). Every other operand has its field's width by its type. -/

namespace Sys2Proof

/-- The number of values of the 9-bit LEN field (R95). -/
def lenRange : Nat := 512

/-- The one check a command term can fail: its length does not fit LEN (R95). -/
def Instr.wellFormed : Instr → Bool
  | .checksum len _ _ => decide (len < lenRange)
  | .validate len _ => decide (len < lenRange)
  | .encode _ len _ _ => decide (len < lenRange)
  | .fpush _ => true
  | .fclear => true
  | .fack => true
  | .rsvd0 => true
  | .rsvd7 => true
  | .rsvd8 => true
  | .rsvd9 => true
  | .rsvdA => true
  | .rsvdB => true
  | .rsvdC => true
  | .rsvdD => true
  | .rsvdE => true
  | .rsvdF => true

end Sys2Proof
end

