-- ==== Sys2Proof/Decode.lean ====
section
/-! DEFINITION. The command word (spec/30_encoding.md R95 to R101): decoder, encoder, and the opcode table as data.
The decoder is total on 32-bit words: every opcode is a command, and ignored bits do not change the decoding (R98).
Over bytes it refuses, by name, a list too short to hold a word. -/

namespace Sys2Proof

/-- OPC, bits [3:0] (R95). -/
def fieldOpc (w : Word) : BitVec 4 := w.extractLsb' 0 4

/-- ID, bits [15:8] (R95). -/
def fieldId (w : Word) : Byte := w.extractLsb' 8 8

/-- LEN, bits [24:16], an unsigned number (R95, R96). -/
def fieldLen (w : Word) : Nat := (w.extractLsb' 16 9).toNat

/-- PABS, bit [25] (R95). -/
def fieldPabs (w : Word) : Bool := w.getLsbD 25

/-- DABS, bit [26] (R95). -/
def fieldDabs (w : Word) : Bool := w.getLsbD 26

/-- CHAIN, bit [27] (R95). -/
def fieldChain (w : Word) : Bool := w.getLsbD 27

/-- The decoding of a word written to CMD (R97, R101), on the opcode's bits 3, 2, 1, 0. -/
def decode (w : Word) : Instr :=
  match w.getLsbD 3, w.getLsbD 2, w.getLsbD 1, w.getLsbD 0 with
  | false, false, false, false => .rsvd0
  | false, false, false, true => .checksum (fieldLen w) (fieldPabs w) (fieldChain w)
  | false, false, true, false => .validate (fieldLen w) (fieldPabs w)
  | false, false, true, true => .encode (fieldId w) (fieldLen w) (fieldPabs w) (fieldDabs w)
  | false, true, false, false => .fpush (fieldId w)
  | false, true, false, true => .fclear
  | false, true, true, false => .fack
  | false, true, true, true => .rsvd7
  | true, false, false, false => .rsvd8
  | true, false, false, true => .rsvd9
  | true, false, true, false => .rsvdA
  | true, false, true, true => .rsvdB
  | true, true, false, false => .rsvdC
  | true, true, false, true => .rsvdD
  | true, true, true, false => .rsvdE
  | true, true, true, true => .rsvdF

/-- A command word from its fields (R95), most significant field first, reserved bits written 0 (R98). -/
def commandWord (opc : BitVec 4) (ident : Byte) (len : Nat) (pabs dabs chain : Bool) : Word :=
  0#4 ++ BitVec.ofBool chain ++ BitVec.ofBool dabs ++ BitVec.ofBool pabs ++ BitVec.ofNat 9 len ++ ident ++ 0#4 ++ opc

/-- The word of a command, as R105 and R107 spell it; unused fields are 0. -/
def encode : Instr → Word
  | .rsvd0 => commandWord 0x0#4 0 0 false false false
  | .checksum len pabs chain => commandWord 0x1#4 0 len pabs false chain
  | .validate len pabs => commandWord 0x2#4 0 len pabs false false
  | .encode ident len pabs dabs => commandWord 0x3#4 ident len pabs dabs false
  | .fpush b => commandWord 0x4#4 b 0 false false false
  | .fclear => commandWord 0x5#4 0 0 false false false
  | .fack => commandWord 0x6#4 0 0 false false false
  | .rsvd7 => commandWord 0x7#4 0 0 false false false
  | .rsvd8 => commandWord 0x8#4 0 0 false false false
  | .rsvd9 => commandWord 0x9#4 0 0 false false false
  | .rsvdA => commandWord 0xA#4 0 0 false false false
  | .rsvdB => commandWord 0xB#4 0 0 false false false
  | .rsvdC => commandWord 0xC#4 0 0 false false false
  | .rsvdD => commandWord 0xD#4 0 0 false false false
  | .rsvdE => commandWord 0xE#4 0 0 false false false
  | .rsvdF => commandWord 0xF#4 0 0 false false false

/-- The opcode of a command (R97). -/
def Instr.opc : Instr → BitVec 4
  | .rsvd0 => 0x0#4
  | .checksum _ _ _ => 0x1#4
  | .validate _ _ => 0x2#4
  | .encode _ _ _ _ => 0x3#4
  | .fpush _ => 0x4#4
  | .fclear => 0x5#4
  | .fack => 0x6#4
  | .rsvd7 => 0x7#4
  | .rsvd8 => 0x8#4
  | .rsvd9 => 0x9#4
  | .rsvdA => 0xA#4
  | .rsvdB => 0xB#4
  | .rsvdC => 0xC#4
  | .rsvdD => 0xD#4
  | .rsvdE => 0xE#4
  | .rsvdF => 0xF#4

/-- The spec's mnemonic of a command, as spec/opcode_table.json spells it. -/
def Instr.mnemonic : Instr → String
  | .rsvd0 => "RSVD_0x0"
  | .checksum _ _ _ => "CHECKSUM"
  | .validate _ _ => "VALIDATE"
  | .encode _ _ _ _ => "ENCODE"
  | .fpush _ => "FPUSH"
  | .fclear => "FCLEAR"
  | .fack => "FACK"
  | .rsvd7 => "RSVD_0x7"
  | .rsvd8 => "RSVD_0x8"
  | .rsvd9 => "RSVD_0x9"
  | .rsvdA => "RSVD_0xA"
  | .rsvdB => "RSVD_0xB"
  | .rsvdC => "RSVD_0xC"
  | .rsvdD => "RSVD_0xD"
  | .rsvdE => "RSVD_0xE"
  | .rsvdF => "RSVD_0xF"

/-- A row of spec/opcode_table.json: the bits that fix the opcode, and the bits its encoding pattern does not mark `x`
(ignored). -/
structure OpcodeRow where
  mnemonic : String
  /-- The row's `match`. -/
  pattern : Word
  /-- The row's `mask`. -/
  mask : Word
  /-- The bits that are not `x` in the row's `encoding`: the opcode and the fields it uses. -/
  used : Word
deriving DecidableEq, Repr

/-- spec/opcode_table.json, row by row. -/
def opcodeTable : List OpcodeRow :=
  [⟨"RSVD_0x0", 0x0#32, 0xF#32, 0x0000000F#32⟩,
   ⟨"CHECKSUM", 0x1#32, 0xF#32, 0x0BFF000F#32⟩,
   ⟨"VALIDATE", 0x2#32, 0xF#32, 0x03FF000F#32⟩,
   ⟨"ENCODE", 0x3#32, 0xF#32, 0x07FFFF0F#32⟩,
   ⟨"FPUSH", 0x4#32, 0xF#32, 0x0000FF0F#32⟩,
   ⟨"FCLEAR", 0x5#32, 0xF#32, 0x0000000F#32⟩,
   ⟨"FACK", 0x6#32, 0xF#32, 0x0000000F#32⟩,
   ⟨"RSVD_0x7", 0x7#32, 0xF#32, 0x0000000F#32⟩] ++
  [⟨"RSVD_0x8", 0x8#32, 0xF#32, 0x0000000F#32⟩,
   ⟨"RSVD_0x9", 0x9#32, 0xF#32, 0x0000000F#32⟩,
   ⟨"RSVD_0xA", 0xA#32, 0xF#32, 0x0000000F#32⟩,
   ⟨"RSVD_0xB", 0xB#32, 0xF#32, 0x0000000F#32⟩,
   ⟨"RSVD_0xC", 0xC#32, 0xF#32, 0x0000000F#32⟩,
   ⟨"RSVD_0xD", 0xD#32, 0xF#32, 0x0000000F#32⟩,
   ⟨"RSVD_0xE", 0xE#32, 0xF#32, 0x0000000F#32⟩,
   ⟨"RSVD_0xF", 0xF#32, 0xF#32, 0x0000000F#32⟩]

/-- The row's opcode bits stand in the word. -/
def OpcodeRow.hits (r : OpcodeRow) (w : Word) : Bool := w &&& r.mask == r.pattern

/-- Why a byte list is refused by the decoder. -/
inductive DecodeError where
  /-- Fewer than the four bytes of a command word (R95: "Every command is exactly one word long"). -/
  | truncated
deriving DecidableEq, Repr

/-- A word from four bytes, bits [7:0] at the lowest byte address (R70, little-endian lanes). -/
def wordOfBytes (b0 b1 b2 b3 : Byte) : Word := b3 ++ b2 ++ b1 ++ b0

/-- The bytes of a word in lane order, lowest address first (R70). -/
def bytesOfWord (w : Word) : List Byte :=
  [w.extractLsb' 0 8, w.extractLsb' 8 8, w.extractLsb' 16 8, w.extractLsb' 24 8]

/-- The decoder over a byte list: the first command word's command and the rest of the list. -/
def decodeBytes : List Byte → Except DecodeError (Instr × List Byte)
  | b0 :: b1 :: b2 :: b3 :: rest => .ok (decode (wordOfBytes b0 b1 b2 b3), rest)
  | _ => .error .truncated

/-- The instruction the decoder reads from a word numbered as spec/opcode_table.json numbers it, the bits above
`nbits` being 0. A command is one word, so a row of more than 32 bits is none of this hardware's. -/
def decodeTableWord (nbits w : Nat) : Option Instr :=
  if nbits ≤ 32 then
    match decodeBytes (bytesOfWord (BitVec.ofNat 32 (w % 2 ^ nbits))) with
    | .ok (i, _) => some i
    | .error _ => none
  else none

end Sys2Proof
end

