-- ==== Sys2Proof/Machine/Checksum.lean ====
section
/-! DEFINITION. The CHECKSUM command (spec/40_checksum.md R113). -/

namespace Sys2Proof.Machine

/-- CHECKSUM (R113), with this hardware's parameters. -/
def execChecksum (len : Nat) (pabs chain : Bool) (s : State) : Host.Outcome State Fault Refusal :=
  .next (checksumCommand Config.hw len pabs chain s)

end Sys2Proof.Machine
end

