-- ==== Sys2Proof/Machine/Encode.lean ====
section
/-! DEFINITION. The ENCODE command (spec/42_encoder.md R161). -/

namespace Sys2Proof.Machine

/-- ENCODE (R161), with this hardware's parameters. -/
def execEncode (ident : Byte) (len : Nat) (pabs dabs : Bool) (s : State) : Host.Outcome State Fault Refusal :=
  .next (encodeCommand Config.hw ident len pabs dabs s)

end Sys2Proof.Machine
end

