-- ==== Sys2Proof/Machine/Framer.lean ====
section
/-! DEFINITION. The frame-synchroniser commands (spec/43_framer.md R187 to R190). None of them writes STATUS. -/

namespace Sys2Proof.Machine

/-- FPUSH (R187): `push(b)`, with this hardware's parameters. -/
def execFpush (b : Byte) (s : State) : Host.Outcome State Fault Refusal :=
  .next (push Config.hw b s)

/-- FCLEAR (R189): FLEN becomes 0 and RESULT becomes NONE. -/
def execFclear (s : State) : Host.Outcome State Fault Refusal :=
  .next { s with fr := s.fr.cleared }

/-- FACK (R188): FAVAIL, OVERRUN and FERR become 0. -/
def execFack (s : State) : Host.Outcome State Fault Refusal :=
  .next { s with fr := s.fr.acknowledged }

end Sys2Proof.Machine
end

