-- ==== Sys2Proof/Machine/Reserved.lean ====
section
/-! DEFINITION. The reserved opcodes (spec/30_encoding.md R99): each reports UNKNOWN_ERROR in STATUS with its own
opcode in LASTOP, and changes nothing else. -/

namespace Sys2Proof.Machine

/-- OPC 0x0, reserved (R99). -/
def execRsvd0 (s : State) : Host.Outcome State Fault Refusal :=
  .next (s.report 0x0#4 .unknownError)

/-- OPC 0x7, reserved (R99). -/
def execRsvd7 (s : State) : Host.Outcome State Fault Refusal :=
  .next (s.report 0x7#4 .unknownError)

/-- OPC 0x8, reserved (R99). -/
def execRsvd8 (s : State) : Host.Outcome State Fault Refusal :=
  .next (s.report 0x8#4 .unknownError)

/-- OPC 0x9, reserved (R99). -/
def execRsvd9 (s : State) : Host.Outcome State Fault Refusal :=
  .next (s.report 0x9#4 .unknownError)

/-- OPC 0xA, reserved (R99). -/
def execRsvdA (s : State) : Host.Outcome State Fault Refusal :=
  .next (s.report 0xA#4 .unknownError)

/-- OPC 0xB, reserved (R99). -/
def execRsvdB (s : State) : Host.Outcome State Fault Refusal :=
  .next (s.report 0xB#4 .unknownError)

/-- OPC 0xC, reserved (R99). -/
def execRsvdC (s : State) : Host.Outcome State Fault Refusal :=
  .next (s.report 0xC#4 .unknownError)

/-- OPC 0xD, reserved (R99). -/
def execRsvdD (s : State) : Host.Outcome State Fault Refusal :=
  .next (s.report 0xD#4 .unknownError)

/-- OPC 0xE, reserved (R99). -/
def execRsvdE (s : State) : Host.Outcome State Fault Refusal :=
  .next (s.report 0xE#4 .unknownError)

/-- OPC 0xF, reserved (R99). -/
def execRsvdF (s : State) : Host.Outcome State Fault Refusal :=
  .next (s.report 0xF#4 .unknownError)

end Sys2Proof.Machine
end

