-- ==== Sys2Proof/Machine/Validate.lean ====
section
/-! DEFINITION. The VALIDATE command (spec/41_validator.md R140). -/

namespace Sys2Proof.Machine

/-- VALIDATE (R140), with this hardware's parameters. -/
def execValidate (len : Nat) (pabs : Bool) (s : State) : Host.Outcome State Fault Refusal :=
  .next (validateCommand Config.hw len pabs s)

end Sys2Proof.Machine
end

