-- ==== Sys2Proof/Machine/Dispatch.lean ====
section
/-! DEFINITION. One arm per command (spec/30_encoding.md R97, R101). -/

namespace Sys2Proof.Machine

-- The effect of one command on the block, inside the bus write that issues it (R66).
def exec (i : Instr) (s : State) : Host.Outcome State Fault Refusal :=
  match i with
  | .rsvd0 => Sys2Proof.Machine.execRsvd0 s
  | .checksum len pabs chain => Sys2Proof.Machine.execChecksum len pabs chain s
  | .validate len pabs => Sys2Proof.Machine.execValidate len pabs s
  | .encode ident len pabs dabs => Sys2Proof.Machine.execEncode ident len pabs dabs s
  | .fpush b => Sys2Proof.Machine.execFpush b s
  | .fclear => Sys2Proof.Machine.execFclear s
  | .fack => Sys2Proof.Machine.execFack s
  | .rsvd7 => Sys2Proof.Machine.execRsvd7 s
  | .rsvd8 => Sys2Proof.Machine.execRsvd8 s
  | .rsvd9 => Sys2Proof.Machine.execRsvd9 s
  | .rsvdA => Sys2Proof.Machine.execRsvdA s
  | .rsvdB => Sys2Proof.Machine.execRsvdB s
  | .rsvdC => Sys2Proof.Machine.execRsvdC s
  | .rsvdD => Sys2Proof.Machine.execRsvdD s
  | .rsvdE => Sys2Proof.Machine.execRsvdE s
  | .rsvdF => Sys2Proof.Machine.execRsvdF s

end Sys2Proof.Machine
end

