-- ==== Sys2Proof/Machine/Agents.lean ====
section
/-! DEFINITION. One step of each of the three agents (spec/00_scope.md R15): a host access, a receive-port byte, reset.
Each is one atomic transition (spec/20_memory.md R66, R72; spec/70_reset_and_hazards.md R245). -/

namespace Sys2Proof.Machine

/-- The host access that just ended got this back from the block (log entry 3). -/
def State.respond (s : State) (r : Option BusResponse) : State := { s with response := r }

/-- A host read (R62 to R68). BusError is checked first (R216). An access outside the window never reaches the block
(R61). -/
def hostRead (width : Nat) (at_ : BusAddr) (s : State) : State :=
  match at_.reaches with
  | none => s.respond none
  | some off =>
    if legalAccess width off then
      let d := readPlace Config.hw s (placeAt off)
      { s with draws := d.2, response := some (.readData d.1) }
    else s.respond (some (.busError off))

/-- A host write (R62 to R67). A write to CMD runs the whole command inside the step (R66, R101). -/
def hostWrite (width : Nat) (at_ : BusAddr) (v : Word) (s : State) : Host.Outcome State Fault Refusal :=
  match at_.reaches with
  | none => .next (s.respond none)
  | some off =>
    if legalAccess width off then
      match placeAt off with
      | .cmd => exec (decode v) (s.respond (some .writeDone))
      | p => .next (writePlace Config.hw v (s.respond (some .writeDone)) p)
    else .next (s.respond (some (.busError off)))

/-- One step of an agent. A byte on the receive port performs `push(b)` and is never refused (R182). -/
def agentStep (e : Event) (s : State) : Host.Outcome State Fault Refusal :=
  match e with
  | .hostRead width at_ => .next (hostRead width at_ s)
  | .hostWrite width at_ v => hostWrite width at_ v s
  | .portByte b => .next (push Config.hw b s)
  | .reset => .next (resetBlock s)

end Sys2Proof.Machine
end

