-- ==== Sys2Proof/Machine/Step.lean ====
section
/-! DEFINITION. One step of the machine: the next agent's step in the order of spec/20_memory.md R73, which the list
`State.inputs` holds (log entry 1). Every interleaving of the agents is some list (spec/00_scope.md R15). -/

namespace Sys2Proof.Machine

/-- The next agent's step. With no step waiting the block stays as it is (log entry 2). -/
def step (s : State) : Host.Outcome State Fault Refusal :=
  match s.inputs with
  | [] => .next s
  | e :: rest => agentStep e { s with inputs := rest }

/-- The host's write of this command word to CMD, put before every step that is waiting: the block does not fetch (R21,
R77), so this is where the next command comes from (log entry 1). -/
def State.withFetchWord (s : State) (nbits w : Nat) : State :=
  { s with inputs := .hostWrite 32 (.offset 0#14) (BitVec.ofNat 32 (w % 2 ^ nbits)) :: s.inputs }

end Sys2Proof.Machine
end

