-- ==== Sys2Proof/Safety.lean ====
section
/-! DEFINITION. What counts as a good state and which steps may write what, in the terms the statements use: the
invariants of the buffers, of STATUS, of the frame synchroniser and of OBUF, and the two units of
spec/60_exceptions.md R222. -/

namespace Sys2Proof.Safety

open Sys2Proof.Machine

/-- The four buffers are in their canonical form and hold no byte beyond their capacity (spec/10_state.md R29), and the
accumulation buffer is shorter than it (R33). -/
structure BuffersInv (P : Params) (s : State) : Prop where
  ibufWf : s.ibuf.wf
  obufWf : s.obuf.wf
  rxpWf : s.rxp.wf
  fbufWf : s.fbuf.wf
  ibufWithin : s.ibuf.within P.maxFrameLen
  obufWithin : s.obuf.within P.maxFrameLen
  rxpWithin : s.rxp.within P.maxFrameLen
  fbufWithin : s.fbuf.within P.maxFrameLen
  flenBound : s.fr.flen.toNat < P.maxFrameLen

/-- The (outcome, stop state) pairs with VRAN = 1 that the validator can report with the total length not checked
strictly (spec/41_validator.md R142). -/
def reachableVerdicts : List (ValidationOutcome × ValidatorState) :=
  [(.schemaError, .start), (.schemaError, .identifier), (.lengthError, .length), (.lengthError, .payload),
   (.crcError, .crc), (.schemaError, .final), (.valid, .complete)]

/-- The outcomes a command-unit opcode can report with VRAN = 0 (spec/60_exceptions.md R211, R212). FPUSH, FCLEAR and
FACK report nothing in STATUS (spec/43_framer.md R190). -/
def outcomesWithoutRun (op : BitVec 4) : List ValidationOutcome :=
  if op = 0x1#4 then [.valid, .unknownError]
  else if op = 0x2#4 then [.schemaError, .unknownError]
  else if op = 0x3#4 then [.valid, .unknownError]
  else if op = 0x4#4 ∨ op = 0x5#4 ∨ op = 0x6#4 then []
  else [.unknownError]

/-- STATUS is at its reset value, or reports what some command can report (spec/10_state.md R23, R35). -/
def StatusInv (s : State) : Prop :=
  s.status = State.reset.status ∨
  (s.status.done = true ∧ s.status.vran = true ∧ s.status.lastop = 0x2#4 ∧
    (s.status.outcome, s.status.vstate) ∈ reachableVerdicts) ∨
  (s.status.done = true ∧ s.status.vran = false ∧ s.status.vstate = .start ∧
    s.status.outcome ∈ outcomesWithoutRun s.status.lastop)

/-- What always holds of the frame synchroniser (spec/10_state.md R26, R27, R32, R33; spec/43_framer.md R193). -/
structure SynchroniserInv (P : Params) (s : State) : Prop where
  /-- The accumulation is shorter than the buffer (R33). -/
  flenBound : s.fr.flen.toNat < P.maxFrameLen
  /-- Every accumulated byte was written (R32). -/
  fbufWritten : s.fbuf.covers s.fr.flen.toNat
  /-- A marker byte at offset 5 or later would have been a trigger (R183, R193). -/
  noLateMarker : ∀ i, 5 ≤ i → i < s.fr.flen.toNat → s.fbuf.read? i ≠ some P.marker
  /-- RESULT is PENDING exactly while bytes are accumulated (R104, R181, R189). -/
  pendingIff : s.fr.result = .pending ↔ s.fr.flen ≠ 0#9
  /-- FOUTCOME is never UNKNOWN_ERROR (R26, R193). -/
  foutcomeKnown : s.fr.foutcome ≠ .unknownError
  /-- A FRAME result comes with outcome VALID (R184). -/
  frameIsValid : s.fr.result = .frame → s.fr.foutcome = .valid
  /-- An ERROR result comes with another outcome (R185, R186). -/
  errorIsNotValid : s.fr.result = .error → s.fr.foutcome ≠ .valid
  /-- OVERRUN is set only beside FAVAIL (R184, R188). -/
  overrunAvail : s.fr.overrun = true → s.fr.favail = true
  /-- RXP holds a payload of PLEN bytes, within the payload bound, without a marker byte (R27, R184, R136). -/
  payloadHeld : ∃ p : List Byte, p.length = s.rxpInfo.plen.toNat ∧ p.length ≤ P.maxPayloadLen ∧ P.marker ∉ p ∧
    s.rxp.holds 0 p
  /-- The identifier of an available frame is not the marker (R134). -/
  pidNoMarker : s.fr.favail = true → s.rxpInfo.pid ≠ P.marker

/-- OBUF_LEN is 0, or OBUF[0..OBUF_LEN) is a frame of spec/30_encoding.md R90 (spec/42_encoder.md R165). -/
def ObufInv (P : Params) (s : State) : Prop :=
  s.obufLen = 0#9 ∨
  ∃ (ident : Byte) (p : List Byte), p.length ≤ P.maxPayloadLen ∧ s.obufLen.toNat = frameLen p.length ∧
    s.obuf.holds 0 (frame P ident p)

/-- The command runs in the command unit (spec/60_exceptions.md R222): CHECKSUM, VALIDATE, ENCODE or a reserved
opcode. -/
def commandUnit : Instr → Bool
  | .fpush _ => false
  | .fclear => false
  | .fack => false
  | .checksum _ _ _ => true
  | .validate _ _ => true
  | .encode _ _ _ _ => true
  | .rsvd0 => true
  | .rsvd7 => true
  | .rsvd8 => true
  | .rsvd9 => true
  | .rsvdA => true
  | .rsvdB => true
  | .rsvdC => true
  | .rsvdD => true
  | .rsvdE => true
  | .rsvdF => true

/-- The commands of the reserved opcodes (spec/30_encoding.md R99). -/
def reservedCommands : List Instr :=
  [.rsvd0, .rsvd7, .rsvd8, .rsvd9, .rsvdA, .rsvdB, .rsvdC, .rsvdD, .rsvdE, .rsvdF]

/-- The two states agree on what the command unit reads and writes (R222), and on the draws to come. -/
structure SameCommandUnit (s t : State) : Prop where
  status : s.status = t.status
  crcVal : s.crcVal = t.crcVal
  obufLen : s.obufLen = t.obufLen
  ibuf : s.ibuf = t.ibuf
  obuf : s.obuf = t.obuf
  draws : s.draws = t.draws

/-- The two states agree on what the frame synchroniser reads and writes (R222). -/
structure SameSynchroniser (s t : State) : Prop where
  fr : s.fr = t.fr
  rxpInfo : s.rxpInfo = t.rxpInfo
  rxp : s.rxp = t.rxp
  fbuf : s.fbuf = t.fbuf

/-- The event is a host write that issues the command `i`: a 32-bit write of a word that decodes to it, at CMD's
offset (spec/20_memory.md R66). -/
def Issues (e : Event) (i : Instr) : Prop :=
  ∃ (at_ : BusAddr) (v : Word), e = .hostWrite 32 at_ v ∧ at_.reaches = some 0#14 ∧ decode v = i

/-- The event pushes byte `b` into the frame synchroniser: a receive-port byte or an FPUSH (spec/43_framer.md R182,
R187). -/
def Pushes (e : Event) (b : Byte) : Prop := e = .portByte b ∨ Issues e (.fpush b)

/-- The event is a host write that reaches byte `i` of the IBUF window (spec/20_memory.md R64). -/
def WritesIbuf (e : Event) (i : Nat) : Prop :=
  ∃ (at_ : BusAddr) (v : Word) (off : Offset), e = .hostWrite 32 at_ v ∧ at_.reaches = some off ∧
    legalAccess 32 off = true ∧ placeAt off = .ibuf i

/-- A payload the frame synchroniser loses: one of its CRC bytes is a trigger (spec/43_framer.md R192). -/
def crcTriggers (P : Params) (p : List Byte) : Prop :=
  (2 ≤ p.length ∧ crcHi (crc16 crcInit p) = P.marker) ∨ (1 ≤ p.length ∧ crcLo (crc16 crcInit p) = P.marker)

/-- An identifier and a payload whose frame the validator accepts (spec/42_encoder.md R166). -/
structure Framable (P : Params) (ident : Byte) (p : List Byte) : Prop where
  ident : ident ≠ P.marker
  payload : P.marker ∉ p
  bound : p.length ≤ P.maxPayloadLen

end Sys2Proof.Safety
end

