-- ==== Sys2Proof/Certificates/Slice0/Obligations.lean ====
section
/-! DEFINITION. The statements about the model, one per numbered rule of spec/ or group of rules. A statement about
`exec` or `step` is about this hardware's parameters (`Config.hw`, spec/00_scope.md R10); one about a shared function
takes the parameters as an argument. -/

open Sys2Proof Sys2Proof.Machine Sys2Proof.Safety

/-! ### The command word -/

/-- Decoding the word of a command whose length fits its field gives the command back, every operand at every value. -/
def Obligations.DecodeOfEncodedCommand : Prop :=
  ∀ i : Instr, i.wellFormed = true → decode (encode i) = i

/-- For every row of the opcode table and every word it hits: the decoded command fits its word, encoding it gives the
word with every ignored bit cleared, and the word with the ignored bits cleared decodes the same (30_encoding.md R98). -/
def Obligations.IgnoredBitsDoNotChangeTheCommand : Prop :=
  ∀ (w : Word) (r : OpcodeRow), r ∈ opcodeTable → r.hits w = true →
    (decode w).wellFormed = true ∧ encode (decode w) = w &&& r.used ∧ decode (w &&& r.used) = decode w

/-- Every word hits a row of the opcode table, and hits a row exactly when it decodes to that row's command, so no two
rows overlap (30_encoding.md R97). -/
def Obligations.EveryWordHitsItsOneTableRow : Prop :=
  ∀ w : Word, (∃ r ∈ opcodeTable, r.hits w = true) ∧
    ∀ r ∈ opcodeTable, (r.hits w = true ↔ r.mnemonic = (decode w).mnemonic)

/-- The decoding of a word written to CMD, opcode by opcode (30_encoding.md R101). -/
def Obligations.CommandWordDecodesByItsFields : Prop :=
  ∀ w : Word,
    (w.extractLsb' 0 4 = 0x1#4 →
      decode w = .checksum (w.extractLsb' 16 9).toNat (w.getLsbD 25) (w.getLsbD 27)) ∧
    (w.extractLsb' 0 4 = 0x2#4 → decode w = .validate (w.extractLsb' 16 9).toNat (w.getLsbD 25)) ∧
    (w.extractLsb' 0 4 = 0x3#4 →
      decode w = .encode (w.extractLsb' 8 8) (w.extractLsb' 16 9).toNat (w.getLsbD 25) (w.getLsbD 26)) ∧
    (w.extractLsb' 0 4 = 0x4#4 → decode w = .fpush (w.extractLsb' 8 8)) ∧
    (w.extractLsb' 0 4 = 0x5#4 → decode w = .fclear) ∧
    (w.extractLsb' 0 4 = 0x6#4 → decode w = .fack) ∧
    (w.extractLsb' 0 4 = 0x0#4 ∨ 0x7#4 ≤ w.extractLsb' 0 4 →
      decode w ∈ reservedCommands ∧ (decode w).opc = w.extractLsb' 0 4)

/-- The command words the spec lists (30_encoding.md R107). -/
def Obligations.ListedCommandWordsDecode : Prop :=
  decode 0x00030001#32 = .checksum 3 false false ∧
  decode 0x08010001#32 = .checksum 1 false true ∧
  decode 0x02000001#32 = .checksum 0 true false ∧
  decode 0x00090002#32 = .validate 9 false ∧
  decode 0x01020002#32 = .validate 258 false ∧
  decode 0x02060002#32 = .validate 6 true ∧
  decode 0x00000203#32 = .encode 0x02#8 0 false false ∧
  decode 0x00030203#32 = .encode 0x02#8 3 false false ∧
  decode 0x06010003#32 = .encode 0x00#8 1 true true ∧
  decode 0x00007E04#32 = .fpush 0x7E#8 ∧
  decode 0x00000005#32 = .fclear ∧
  decode 0x00000006#32 = .fack

/-! ### Steps, the host bus and reset -/

/-- A step whose next event is a host write to CMD, at the block's offset 0 or at the host's address P_BASE, runs the
command the word decodes to, in the state that has the event taken and the bus answered; and so does a step after
`withFetchWord` (20_memory.md R66; log entries 1 and 3 for the model's own fields). -/
def Obligations.CommandWriteStepRunsItsCommand : Prop :=
  ∀ (s : State) (w : Word) (i : Instr) (rest : List Event), decode w = i →
    step { s with inputs := .hostWrite 32 (.offset 0#14) w :: rest } =
      exec i { s with inputs := rest, response := some .writeDone } ∧
    step { s with inputs := .hostWrite 32 (.absolute Config.pBase) w :: rest } =
      exec i { s with inputs := rest, response := some .writeDone } ∧
    step (s.withFetchWord 32 w.toNat) = exec i { s with response := some .writeDone }

/-- Every command answers a next state, and so does every step, which has the next event taken. For commands and received
bytes that is 60_exceptions.md R210 (no trap, exception or abort). The rest is the model's choice: the list of events
(log entry 1), a step with no event waiting (log entry 2), a BusError as a next state, where R214 also allows a fault
(log entry 6), and an access outside the window, of which 20_memory.md R61 says only that it never reaches the block (log
entry 15). -/
def Obligations.EveryStepAnswersANextState : Prop :=
  (∀ (i : Instr) (s : State), ∃ t, exec i s = .next t) ∧
  ∀ s : State, ∃ t, step s = .next t ∧ t.inputs = s.inputs.tail

/-- A host read right after a CMD write sees the command's results: the command is done, and the read returns the word
of the state it left (20_memory.md R66). -/
def Obligations.CommandResultsAreReadableInTheNextStep : Prop :=
  ∀ (s : State) (w : Word) (off : Offset) (rest : List Event), off.extractLsb' 0 2 = 0#2 →
    ∃ u : State,
      step { s with inputs := .hostWrite 32 (.offset 0#14) w :: .hostRead 32 (.offset off) :: rest } = .next u ∧
      exec (decode w) { s with inputs := .hostRead 32 (.offset off) :: rest, response := some .writeDone } = .next u ∧
      step u = .next
        { u with
          inputs := rest
          draws := (readPlace Config.hw u (placeAt off)).2
          response := some (.readData (readPlace Config.hw u (placeAt off)).1) }

/-- The numeric codes of the outcomes, the validator's states and the frame synchroniser's results (30_encoding.md R102,
R103, R104); outcome codes 5 to 7 and state code 7 are never produced. -/
def Obligations.CodeTablesAreAsListed : Prop :=
  [ValidationOutcome.valid, .schemaError, .lengthError, .crcError, .unknownError].map ValidationOutcome.code =
    [0#3, 1#3, 2#3, 3#3, 4#3] ∧
  [ValidatorState.start, .identifier, .length, .payload, .crc, .final, .complete].map ValidatorState.code =
    [0#3, 1#3, 2#3, 3#3, 4#3, 5#3, 6#3] ∧
  [FrResult.none, .pending, .frame, .error].map FrResult.code = [0#2, 1#2, 2#2, 3#2] ∧
  (∀ o : ValidationOutcome, o.code.toNat < 5) ∧ ∀ q : ValidatorState, q.code ≠ 7#3

/-- A host read of CMD returns 0; of STATUS, CRC and OBUF_LEN, their fields at their bits, reserved bits 0. No state
changes (10_state.md R22 to R25). -/
def Obligations.CommandUnitRegistersRead : Prop :=
  ∀ (s : State) (rest : List Event),
    step { s with inputs := .hostRead 32 (.offset 0x0000#14) :: rest } =
      .next { s with inputs := rest, response := some (.readData 0x00000000#32) } ∧
    (∃ w : Word,
      step { s with inputs := .hostRead 32 (.offset 0x0004#14) :: rest } =
        .next { s with inputs := rest, response := some (.readData w) } ∧
      w.extractLsb' 0 3 = s.status.outcome.code ∧ w.getLsbD 3 = false ∧ w.extractLsb' 4 3 = s.status.vstate.code ∧
      w.getLsbD 7 = s.status.vran ∧ w.getLsbD 8 = s.status.done ∧ w.extractLsb' 9 3 = 0#3 ∧
      w.extractLsb' 12 4 = s.status.lastop ∧ w.extractLsb' 16 16 = 0#16) ∧
    (∃ w : Word,
      step { s with inputs := .hostRead 32 (.offset 0x0008#14) :: rest } =
        .next { s with inputs := rest, response := some (.readData w) } ∧
      w.extractLsb' 0 16 = s.crcVal ∧ w.extractLsb' 16 16 = 0#16) ∧
    (∃ w : Word,
      step { s with inputs := .hostRead 32 (.offset 0x000C#14) :: rest } =
        .next { s with inputs := rest, response := some (.readData w) } ∧
      w.extractLsb' 0 9 = s.obufLen ∧ w.extractLsb' 9 23 = 0#23)

/-- A host read of FR_STATUS and RXP_INFO returns their fields at their bits, reserved bits 0. No state changes
(10_state.md R26, R27). -/
def Obligations.SynchroniserRegistersRead : Prop :=
  ∀ (s : State) (rest : List Event),
    (∃ w : Word,
      step { s with inputs := .hostRead 32 (.offset 0x0010#14) :: rest } =
        .next { s with inputs := rest, response := some (.readData w) } ∧
      w.extractLsb' 0 2 = s.fr.result.code ∧ w.extractLsb' 2 2 = 0#2 ∧ w.extractLsb' 4 3 = s.fr.foutcome.code ∧
      w.getLsbD 7 = false ∧ w.getLsbD 8 = s.fr.favail ∧ w.getLsbD 9 = s.fr.overrun ∧ w.getLsbD 10 = s.fr.ferr ∧
      w.extractLsb' 11 5 = 0#5 ∧ w.extractLsb' 16 9 = s.fr.flen ∧ w.extractLsb' 25 7 = 0#7) ∧
    (∃ w : Word,
      step { s with inputs := .hostRead 32 (.offset 0x0014#14) :: rest } =
        .next { s with inputs := rest, response := some (.readData w) } ∧
      w.extractLsb' 0 8 = s.rxpInfo.plen ∧ w.extractLsb' 8 8 = s.rxpInfo.pid ∧ w.extractLsb' 16 16 = 0#16)

/-- PARAM is a constant image of the parameters: its fields for any legal parameters, and in every state of this
hardware the word 0x0102007E, which no step changes (10_state.md R28). -/
def Obligations.ParamIsAConstantImage : Prop :=
  (∀ P : Params, P.legal →
    (paramImage P).extractLsb' 0 8 = P.marker ∧ (paramImage P).extractLsb' 8 8 = 0#8 ∧
    ((paramImage P).extractLsb' 16 9).toNat = P.maxFrameLen ∧ (paramImage P).extractLsb' 25 6 = 0#6 ∧
    (paramImage P).getLsbD 31 = P.strictTotalLength) ∧
  ∀ (s : State) (rest : List Event),
    step { s with inputs := .hostRead 32 (.offset 0x0018#14) :: rest } =
      .next { s with inputs := rest, response := some (.readData 0x0102007E#32) }

/-- A host read of a reserved offset, 0x001C to 0x0FFC, returns 0 and changes nothing (20_memory.md R62, R67). -/
def Obligations.ReservedOffsetsReadZero : Prop :=
  ∀ (s : State) (off : Offset) (rest : List Event),
    off.extractLsb' 0 2 = 0#2 → 0x001C ≤ off.toNat → off.toNat ≤ 0x0FFC →
    step { s with inputs := .hostRead 32 (.offset off) :: rest } =
      .next { s with inputs := rest, response := some (.readData 0x00000000#32) }

/-- A host read of byte i of the IBUF, OBUF or RXP window, i = 0 to 1023, returns the byte zero-extended, a fresh draw
where nothing has been written since reset, and 0 beyond the capacity (20_memory.md R64, R65; 10_state.md R31). The count
of draws is the model's own (log entry 4). -/
def Obligations.BufferWindowsReadOneByteAWord : Prop :=
  ∀ (s : State) (rest : List Event) (i : Nat), i < 1024 →
    ∀ w ∈ [(0x1000, s.ibuf), (0x2000, s.obuf), (0x3000, s.rxp)],
      step { s with inputs := .hostRead 32 (.offset (BitVec.ofNat 14 (w.1 + 4 * i))) :: rest } =
        .next
          { s with
            inputs := rest
            draws := if i < Config.hw.maxFrameLen ∧ Memory.read? w.2 i = none then s.draws + 1 else s.draws
            response := some (.readData
              (if i < Config.hw.maxFrameLen then
                ((Memory.read? w.2 i).getD (Config.freeByte s.draws)).setWidth 32
              else 0#32)) }

/-- A 32-bit host write at a 4-aligned offset other than CMD's changes at most one byte of IBUF, and only through the
IBUF window within the capacity, to v[7:0]; every other write is ignored with no error response (20_memory.md R64, R65,
R67). -/
def Obligations.HostWritesChangeOnlyIbuf : Prop :=
  ∀ (s : State) (off : Offset) (v : Word) (rest : List Event),
    off.extractLsb' 0 2 = 0#2 → off ≠ 0#14 →
    ∃ m : Memory,
      step { s with inputs := .hostWrite 32 (.offset off) v :: rest } =
        .next { s with inputs := rest, response := some .writeDone, ibuf := m } ∧
      ∀ j, Memory.read? m j =
        if 0x1000 ≤ off.toNat ∧ off.toNat < 0x2000 ∧ j < Config.hw.maxFrameLen ∧ off.toNat = 0x1000 + 4 * j then
          some (v.extractLsb' 0 8)
        else Memory.read? s.ibuf j

/-- A host access of another width than 32 bits, or at an offset that is not a multiple of 4, gets an error response and
changes no state of the block (20_memory.md R63; 60_exceptions.md R214); that it is a next state with the response
recorded is the model's choice (log entries 6 and 3). -/
def Obligations.IllegalAccessesChangeNothing : Prop :=
  ∀ (s : State) (width : Nat) (off : Offset) (v : Word) (rest : List Event),
    width ≠ 32 ∨ off.extractLsb' 0 2 ≠ 0#2 →
    step { s with inputs := .hostRead width (.offset off) :: rest } =
      .next { s with inputs := rest, response := some (.busError off) } ∧
    step { s with inputs := .hostWrite width (.offset off) v :: rest } =
      .next { s with inputs := rest, response := some (.busError off) }

/-- A host access at an address of the 16 KiB window at P_BASE is the access at that offset, and an access outside the
window changes nothing of the block (20_memory.md R60, R61; 00_scope.md R13). The two address forms are the model's choice
(log entry 8), and so is the response, none outside the window, where the spec says nothing of what the host gets back
(log entry 15). -/
def Obligations.TheWindowIsSixteenKibAtBase : Prop :=
  ∀ (s : State) (width addr : Nat) (v : Word) (rest : List Event),
    (∀ off : Offset, addr = Config.pBase + off.toNat →
      step { s with inputs := .hostRead width (.absolute addr) :: rest } =
        step { s with inputs := .hostRead width (.offset off) :: rest } ∧
      step { s with inputs := .hostWrite width (.absolute addr) v :: rest } =
        step { s with inputs := .hostWrite width (.offset off) v :: rest }) ∧
    (addr < Config.pBase ∨ Config.pBase + 0x4000 ≤ addr →
      step { s with inputs := .hostRead width (.absolute addr) :: rest } =
        .next { s with inputs := rest, response := none } ∧
      step { s with inputs := .hostWrite width (.absolute addr) v :: rest } =
        .next { s with inputs := rest, response := none })

/-- No host read has a side effect: whatever the width and the address, only the response and the model's count of draws
change, and where no byte was drawn a second read gets the same answer (20_memory.md R68). -/
def Obligations.HostReadsHaveNoSideEffect : Prop :=
  ∀ (s : State) (width : Nat) (at_ : BusAddr) (rest : List Event), ∃ (r : Option BusResponse) (k : Nat),
    step { s with inputs := .hostRead width at_ :: .hostRead width at_ :: rest } =
      .next { s with inputs := .hostRead width at_ :: rest, response := r, draws := k } ∧
    s.draws ≤ k ∧ k ≤ s.draws + 1 ∧
    (k = s.draws →
      step { s with inputs := .hostRead width at_ :: rest, response := r, draws := k } =
        .next { s with inputs := rest, response := r })

/-- A reset step, whatever the state before it: STATUS, CRC, OBUF_LEN, FR_STATUS and RXP_INFO read their reset values,
and no byte of any buffer counts as written (70_reset_and_hazards.md R230; 10_state.md R37). -/
def Obligations.ResetSetsEveryRegister : Prop :=
  ∀ (s : State) (rest : List Event), ∃ t : State,
    step { s with inputs := .reset :: rest } = .next t ∧
    t.status.image = 0x00000000#32 ∧ crcImage t.crcVal = 0x0000FFFF#32 ∧ obufLenImage t.obufLen = 0x00000000#32 ∧
    t.fr.image = 0x00000000#32 ∧ t.rxpInfo.image = 0x00000000#32 ∧
    (∀ i, t.ibuf.read? i = none ∧ t.obuf.read? i = none ∧ t.rxp.read? i = none ∧ t.fbuf.read? i = none) ∧
    t.inputs = rest

/-- The state after reset: the values the spec gives (10_state.md R37). -/
def Obligations.ResetStateHasTheListedValues : Prop :=
  State.reset.status.image = 0x00000000#32 ∧ crcImage State.reset.crcVal = 0x0000FFFF#32 ∧
  obufLenImage State.reset.obufLen = 0x00000000#32 ∧ State.reset.fr.image = 0x00000000#32 ∧
  State.reset.rxpInfo.image = 0x00000000#32 ∧ paramImage Config.hw = 0x0102007E#32

/-- What a slice of a buffer reads: each byte that was written, and a fresh draw, numbered on from `k`, for each that was
not; a draw number is used once (10_state.md R31; that each byte is read once is log entry 5). -/
def Obligations.SlicesReadWrittenBytesAndFreshDraws : Prop :=
  ∀ (m : Memory) (i n k : Nat),
    (m.readRange i n k).1.length = n ∧
    (m.readRange i n k).2 = k + (List.range n).countP (fun t => (m.read? (i + t)).isNone) ∧
    ∀ j, j < n → (m.readRange i n k).1[j]? =
      some ((m.read? (i + j)).getD
        (Config.freeByte (k + (List.range j).countP (fun t => (m.read? (i + t)).isNone))))

/-! ### The CRC function and CHECKSUM -/

/-- The per-round trace of `crc16(0xFFFF, [0x00])` and the register after each byte of [0x00, 0x01, 0x02]
(40_checksum.md R117). -/
def Obligations.CrcRoundTraceIsAsListed : Prop :=
  0xFFFF#16 ^^^ ((0x00#8).setWidth 16 <<< 8) = 0xFFFF#16 ∧
  (List.range 8).map (fun n => crcRounds (n + 1) 0xFFFF#16) =
    [0xEFDF#16, 0xCF9F#16, 0x8F1F#16, 0x0E1F#16, 0x1C3E#16, 0x387C#16, 0x70F8#16, 0xE1F0#16] ∧
  crc16 0xFFFF#16 [0x00#8] = 0xE1F0#16 ∧ crc16 0xFFFF#16 [0x00#8, 0x01#8] = 0x0D2E#16 ∧
  crc16 0xFFFF#16 [0x00#8, 0x01#8, 0x02#8] = 0xDFEF#16

/-- CHECKSUM, for every operand in every state (40_checksum.md R113), with its example. -/
def Obligations.ChecksumComputesTheCrc : Prop :=
  (∀ (len : Nat) (pabs chain : Bool) (s : State),
    exec (.checksum len pabs chain) s = .next
      (if pabs = true then
        { s with
          crcVal := if chain = true then s.crcVal else 0xFFFF#16
          status := ⟨.valid, .start, false, true, 0x1#4⟩ }
      else if len > Config.hw.maxFrameLen then
        { s with status := ⟨.unknownError, .start, false, true, 0x1#4⟩ }
      else
        { s with
          crcVal := crc16 (if chain = true then s.crcVal else 0xFFFF#16) (s.ibuf.readRange 0 len s.draws).1
          draws := (s.ibuf.readRange 0 len s.draws).2
          status := ⟨.valid, .start, false, true, 0x1#4⟩ })) ∧
  ∀ s : State, s.ibuf.holds 0 [0x00#8, 0x01#8, 0x02#8] → ∃ t : State, exec (decode 0x00030001#32) s = .next t ∧
    crcImage t.crcVal = 0x0000DFEF#32 ∧ t.status.image = 0x00001100#32 ∧ t.draws = s.draws

/-- Chaining is exact: a CHECKSUM over a, then one with CHAIN over b, leave the CRC of a ++ b, whatever runs between
them that keeps CRC (40_checksum.md R114). -/
def Obligations.ChainedChecksumsEqualOneChecksum : Prop :=
  (∀ (init : Half) (a b : List Byte), crc16 (crc16 init a) b = crc16 init (a ++ b)) ∧
  ∀ (a b : List Byte) (chain : Bool) (s u : State), a.length ≤ Config.hw.maxFrameLen → b.length ≤ Config.hw.maxFrameLen →
    s.ibuf.holds 0 a → u.ibuf.holds 0 b →
    ∃ t : State, exec (.checksum a.length false chain) s = .next t ∧
      (u.crcVal = t.crcVal → ∃ v : State, exec (.checksum b.length false true) u = .next v ∧
        v.crcVal = crc16 (if chain = true then s.crcVal else 0xFFFF#16) (a ++ b))

/-- A change confined to two adjacent bytes always changes the CRC, from any initial value: derived from
40_checksum.md R111. -/
def Obligations.CrcDetectsEveryTwoByteChange : Prop :=
  ∀ (init : Half) (a x y c : List Byte), x.length = y.length → x.length ≤ 2 → x ≠ y →
    crc16 init (a ++ x ++ c) ≠ crc16 init (a ++ y ++ c)

/-! ### The validator and VALIDATE -/

/-- The validator, check by check in its order, on every buffer: shorter than 6 bytes; a wrong start; a marker as
identifier; a declared length the buffer cannot hold; and a buffer that holds its declared window p, two CRC bytes, one
byte more and a tail (41_validator.md R131 to R138, R141). -/
def Obligations.ValidatorChecksInOrder : Prop :=
  ∀ P : Params,
    (∀ s : List Byte, s.length < 6 → validate P s = ⟨.schemaError, false, .start, none⟩) ∧
    ∀ (m ident len : Byte) (r : List Byte), 3 ≤ r.length →
      (m ≠ P.marker → validate P (m :: ident :: len :: r) = ⟨.schemaError, true, .start, none⟩) ∧
      (m = P.marker → ident = P.marker →
        validate P (m :: ident :: len :: r) = ⟨.schemaError, true, .identifier, none⟩) ∧
      (m = P.marker → ident ≠ P.marker → r.length < len.toNat + 3 →
        validate P (m :: ident :: len :: r) = ⟨.lengthError, true, .length, none⟩) ∧
      ∀ (p t : List Byte) (hi lo e : Byte), m = P.marker → ident ≠ P.marker → p.length = len.toNat →
        r = p ++ hi :: lo :: e :: t →
        validate P (m :: ident :: len :: r) =
          if P.marker ∈ p then ⟨.lengthError, true, .payload, none⟩
          else if 256 * hi.toNat + lo.toNat ≠ (crc16 0xFFFF#16 p).toNat then
            ⟨.crcError, true, .crc, some (crc16 0xFFFF#16 p)⟩
          else if e ≠ P.marker then ⟨.schemaError, true, .final, some (crc16 0xFFFF#16 p)⟩
          else if P.strictTotalLength = true ∧ t ≠ [] then
            ⟨.lengthError, true, .complete, some (crc16 0xFFFF#16 p)⟩
          else ⟨.valid, true, .complete, some (crc16 0xFFFF#16 p)⟩

/-- The reachable pairs of outcome and stop state are exactly the listed ones, with VRAN = 1 and, apart, with VRAN = 0
(41_validator.md R142). -/
def Obligations.ValidatorVerdictsAreTheListedPairs : Prop :=
  ∀ (P : Params) (o : ValidationOutcome) (q : ValidatorState),
    ((∃ s : List Byte, (validate P s).ran = true ∧ (validate P s).outcome = o ∧ (validate P s).stop = q) ↔
      (o, q) ∈ reachableVerdicts ∨ (P.strictTotalLength = true ∧ (o, q) = (.lengthError, .complete))) ∧
    ((∃ s : List Byte, (validate P s).ran = false ∧ (validate P s).outcome = o ∧ (validate P s).stop = q) ↔
      (o, q) = (.schemaError, .start))

/-- The state machine of 41_validator.md R130, run from START by its transition function, gives what `validate` of R131
gives, for every buffer; so seven transitions always reach a stop. -/
def Obligations.StateMachineRefinesValidate : Prop :=
  ∀ (P : Params) (s : List Byte), validateByFsm P s = some (validate P s)

/-- With the total length not checked strictly, a buffer is VALID exactly when it is a frame followed by anything, with
no marker in the payload and an identifier other than the marker; checked strictly, exactly when it is such a frame
(41_validator.md R145, R138). -/
def Obligations.ValidBuffersAreFramesWithATail : Prop :=
  ∀ (P : Params) (s : List Byte),
    (validate P s).outcome = .valid ↔
      ∃ (ident : Byte) (p t : List Byte), s = frame P ident p ++ t ∧ p.length ≤ 255 ∧ P.marker ∉ p ∧
        ident ≠ P.marker ∧ (P.strictTotalLength = true → t = [])

/-- VALIDATE, for every operand in every state (41_validator.md R140), with its example: CRC is written exactly when the
state machine computed the checksum. -/
def Obligations.ValidateClassifiesTheBuffer : Prop :=
  (∀ (len : Nat) (pabs : Bool) (s : State),
    exec (.validate len pabs) s = .next
      (if pabs = true ∨ len > Config.hw.maxFrameLen then
        { s with status := ⟨.unknownError, .start, false, true, 0x2#4⟩ }
      else
        let d := s.ibuf.readRange 0 len s.draws
        let r := validate Config.hw d.1
        { s with
          crcVal := match r.crc with
            | some c => c
            | none => s.crcVal
          draws := d.2
          status := ⟨r.outcome, r.stop, r.ran, true, 0x2#4⟩ })) ∧
  (∀ (P : Params) (f : List Byte), (validate P f).crc ≠ none ↔
    ((validate P f).stop = .crc ∧ (validate P f).outcome = .crcError) ∨ (validate P f).stop = .final ∨
      (validate P f).stop = .complete) ∧
  ∀ s : State, s.ibuf.holds 0 [0x7E#8, 0x01#8, 0x01#8, 0x01#8, 0x00#8, 0x00#8, 0x7E#8] →
    ∃ t : State, exec (decode 0x00070002#32) s = .next t ∧ t.status.image = 0x000021C3#32 ∧
      crcImage t.crcVal = 0x0000F1D1#32

/-- A declared length of 253 or more is never VALID in this hardware, and gives LENGTH_ERROR once the header's markers
are right; ENCODE refuses more than 252 bytes (70_reset_and_hazards.md R243; 41_validator.md R140). -/
def Obligations.DeclaredLengthsAbove252NeverValidate : Prop :=
  (∀ s : List Byte, s.length ≤ Config.hw.maxFrameLen → 253 ≤ declaredLen s →
    (validate Config.hw s).outcome ≠ .valid ∧
    (6 ≤ s.length → byteAt s 0 = Config.hw.marker → byteAt s 1 ≠ Config.hw.marker →
      validate Config.hw s = ⟨.lengthError, true, .length, none⟩)) ∧
  ∀ (ident : Byte) (len : Nat) (pabs dabs : Bool) (s : State), 252 < len →
    exec (.encode ident len pabs dabs) s = .next { s with status := ⟨.unknownError, .start, false, true, 0x3#4⟩ }

/-- A frame of which one byte or two adjacent bytes of the payload were changed, no marker byte brought in, gives
CRC_ERROR: derived from 41_validator.md R137 and 40_checksum.md R111. -/
def Obligations.CorruptedPayloadGivesCrcError : Prop :=
  ∀ (P : Params) (ident : Byte) (a x y c : List Byte),
    ident ≠ P.marker → (a ++ x ++ c).length ≤ 255 → x.length = y.length → x.length ≤ 2 → x ≠ y →
    P.marker ∉ a ++ y ++ c →
    validate P
      ([P.marker, ident, BitVec.ofNat 8 (a ++ x ++ c).length] ++ (a ++ y ++ c) ++
        [crcHi (crc16 crcInit (a ++ x ++ c)), crcLo (crc16 crcInit (a ++ x ++ c)), P.marker]) =
      ⟨.crcError, true, .crc, some (crc16 crcInit (a ++ y ++ c))⟩

/-! ### ENCODE -/

/-- ENCODE, for every operand in every state (42_encoder.md R161): refused arguments change STATUS only; else OBUF holds
the frame of the identifier and the payload and, beyond it, what it held before (R165, 10_state.md R30), with its
example. -/
def Obligations.EncodeWritesTheFrame : Prop :=
  (∀ (ident : Byte) (len : Nat) (pabs dabs : Bool) (s : State), ∃ m : Memory,
    exec (.encode ident len pabs dabs) s = .next
      (if dabs = true ∨ (len > 0 ∧ pabs = true) ∨ len > Config.hw.maxPayloadLen then
        { s with status := ⟨.unknownError, .start, false, true, 0x3#4⟩ }
      else
        let d := s.ibuf.readRange 0 len s.draws
        { s with
          obuf := m
          obufLen := BitVec.ofNat 9 (6 + len)
          crcVal := crc16 0xFFFF#16 d.1
          draws := d.2
          status := ⟨.valid, .start, false, true, 0x3#4⟩ }) ∧
    ∀ i, Memory.read? m i =
      if i < 6 + len then (frame Config.hw ident (s.ibuf.readRange 0 len s.draws).1)[i]? else s.obuf.read? i) ∧
  (∀ len, len ≤ Config.hw.maxPayloadLen → (BitVec.ofNat 9 (6 + len)).toNat = 6 + len) ∧
  ∀ s : State, ∃ t : State, exec (decode 0x00000203#32) s = .next t ∧
    t.obuf.holds 0 [0x7E#8, 0x02#8, 0x00#8, 0xFF#8, 0xFF#8, 0x7E#8] ∧ obufLenImage t.obufLen = 6#32 ∧
    crcImage t.crcVal = 0x0000FFFF#32 ∧ t.status.image = 0x00003100#32

/-- Round trip: a payload with no marker byte, encoded under an identifier other than the marker, copied from OBUF to
IBUF and validated, is VALID, and OBUF holds the payload and its length. With a marker byte as identifier or in the
payload the copied frame is not VALID, and a longer payload is not encoded (42_encoder.md R166). -/
def Obligations.EncodedFramesValidate : Prop :=
  (∀ (ident : Byte) (p : List Byte) (s : State), Framable Config.hw ident p → s.ibuf.holds 0 p →
    ∃ t : State, exec (.encode ident p.length false false) s = .next t ∧
      t.obufLen.toNat = 6 + p.length ∧ t.obuf.read? 2 = some (BitVec.ofNat 8 p.length) ∧
      (BitVec.ofNat 8 p.length).toNat = p.length ∧ t.obuf.holds 3 p ∧
      ∀ u : State, (∀ i, i < t.obufLen.toNat → u.ibuf.read? i = t.obuf.read? i) →
        exec (.validate t.obufLen.toNat false) u = .next
          { u with crcVal := t.crcVal, status := ⟨.valid, .complete, true, true, 0x2#4⟩ }) ∧
  (∀ (ident : Byte) (p : List Byte) (s : State), p.length ≤ Config.hw.maxPayloadLen → s.ibuf.holds 0 p →
    ident = Config.hw.marker ∨ Config.hw.marker ∈ p →
    ∃ t : State, exec (.encode ident p.length false false) s = .next t ∧ t.status.outcome = .valid ∧
      ∀ u : State, (∀ i, i < t.obufLen.toNat → u.ibuf.read? i = t.obuf.read? i) →
        ∃ v : State, exec (.validate t.obufLen.toNat false) u = .next v ∧ v.status.outcome ≠ .valid) ∧
  ∀ (ident : Byte) (len : Nat) (s : State), Config.hw.maxPayloadLen < len →
    ∃ t : State, exec (.encode ident len false false) s = .next t ∧ t.status.outcome = .unknownError

/-- The encoder checks no marker: a frame whose identifier is the marker is refused by the validator at IDENTIFIER, and
one whose payload holds a marker byte at PAYLOAD (42_encoder.md R162; 70_reset_and_hazards.md R234, R235). -/
def Obligations.EncodedMarkersAreRejectedByTheValidator : Prop :=
  ∀ (P : Params) (ident : Byte) (p : List Byte), p.length ≤ 255 →
    (ident = P.marker → validate P (frame P ident p) = ⟨.schemaError, true, .identifier, none⟩) ∧
    (ident ≠ P.marker → P.marker ∈ p → validate P (frame P ident p) = ⟨.lengthError, true, .payload, none⟩)

/-! ### The reserved opcodes -/

/-- A reserved opcode reports UNKNOWN_ERROR with its opcode in LASTOP, and changes nothing else (30_encoding.md R99),
with its example. -/
def Obligations.ReservedOpcodesReportUnknownError : Prop :=
  (∀ i ∈ reservedCommands, ∀ s : State,
    exec i s = .next { s with status := ⟨.unknownError, .start, false, true, i.opc⟩ } ∧
    StatusReg.image ⟨.unknownError, .start, false, true, i.opc⟩ = 0x00000104#32 ||| (i.opc.setWidth 32 <<< 12)) ∧
  ∀ s : State, ∃ t : State, exec (decode 0x00000007#32) s = .next t ∧ t.status.image = 0x00007104#32

/-! ### The frame synchroniser -/

/-- FPUSH of a byte that is no trigger: it is appended, and the push is PENDING, or at the buffer's capacity an overflow
with LENGTH_ERROR (43_framer.md R181, R183, R186). -/
def Obligations.FpushAccumulatesOrOverflows : Prop :=
  ∀ (b : Byte) (s : State), ¬ (b = Config.hw.marker ∧ s.fr.flen.toNat + 1 ≥ 6) → ∃ m : Memory,
    exec (.fpush b) s = .next
      { s with
        fbuf := m
        fr := if s.fr.flen.toNat + 1 = Config.hw.maxFrameLen then
            { s.fr with result := .error, foutcome := .lengthError, ferr := true, flen := 0#9 }
          else { s.fr with result := .pending, flen := BitVec.ofNat 9 (s.fr.flen.toNat + 1) } } ∧
    ∀ i, Memory.read? m i = if i = s.fr.flen.toNat then some b else s.fbuf.read? i

/-- FPUSH of a trigger, with every accumulated byte written: the validator classifies the accumulation with the marker
appended. VALID is a FRAME result, the payload in RXP (the rest of RXP kept), its length and identifier in RXP_INFO;
any other outcome is an ERROR result. The accumulation is emptied either way (43_framer.md R181, R183, R184, R185). -/
def Obligations.FpushTriggerValidatesTheAccumulation : Prop :=
  ∀ (f : List Byte) (s : State), f.length = s.fr.flen.toNat → 5 ≤ f.length → s.fbuf.holds 0 f →
    ∃ m r : Memory,
      let g := f ++ [Config.hw.marker]
      exec (.fpush Config.hw.marker) s = .next
        (if (validate Config.hw g).outcome = .valid then
          { s with
            fbuf := m
            rxp := r
            rxpInfo := ⟨byteAt g 2, byteAt g 1⟩
            fr := ⟨.frame, .valid, true, s.fr.overrun || s.fr.favail, s.fr.ferr, 0#9⟩ }
        else
          { s with
            fbuf := m
            fr := ⟨.error, (validate Config.hw g).outcome, s.fr.favail, s.fr.overrun, true, 0#9⟩ }) ∧
      (∀ i, Memory.read? m i = if i = s.fr.flen.toNat then some Config.hw.marker else s.fbuf.read? i) ∧
      ((validate Config.hw g).outcome = .valid →
        ∀ i, Memory.read? r i = if i < (byteAt g 2).toNat then g[3 + i]? else s.rxp.read? i)

/-- From reset, six FPUSH commands deliver the empty frame (43_framer.md R187, the example), one command a step. -/
def Obligations.SixPushesDeliverTheEmptyFrame : Prop :=
  ∃ t : State,
    Host.Core.run Sys2Proof.core 6
      { State.reset with inputs := [0x00007E04#32, 0x00000204#32, 0x00000004#32, 0x0000FF04#32, 0x0000FF04#32,
          0x00007E04#32].map (fun w => Event.hostWrite 32 (.offset 0#14) w) } = .next t ∧
    t.fr.image = 0x00000102#32 ∧ t.rxpInfo.image = 0x00000200#32 ∧ t.status.image = 0#32

/-- Bytes on the receive port are pushed one a step, in their order, each exactly as FPUSH pushes it; the port refuses
none (43_framer.md R182). -/
def Obligations.PortBytesArePushedInOrder : Prop :=
  (∀ (b : Byte) (s : State) (rest : List Event),
    step { s with inputs := .portByte b :: rest } = exec (.fpush b) { s with inputs := rest }) ∧
  ∀ (bs : List Byte) (s : State) (rest : List Event),
    Host.Core.run Sys2Proof.core bs.length { s with inputs := bs.map Event.portByte ++ rest } =
      .next { pushAll Config.hw bs s with inputs := rest }

/-- FACK clears FAVAIL, OVERRUN and FERR, bits [10:8] of FR_STATUS, and changes nothing else (43_framer.md R188), with
its example. -/
def Obligations.FackClearsTheStickyFlags : Prop :=
  (∀ s : State, ∃ f : FrStatusReg, exec .fack s = .next { s with fr := f } ∧
    f.image = s.fr.image &&& 0xFFFFF8FF#32 ∧ f.result = s.fr.result ∧ f.foutcome = s.fr.foutcome ∧
    f.flen = s.fr.flen ∧ f.favail = false ∧ f.overrun = false ∧ f.ferr = false) ∧
  ∀ s : State, s.fr.image = 0x00000302#32 → ∃ t : State, exec .fack s = .next t ∧ t.fr.image = 0x00000002#32

/-- FCLEAR sets FLEN, bits [24:16] of FR_STATUS, and RESULT, bits [1:0], to 0 and changes nothing else (43_framer.md
R189), with its example. -/
def Obligations.FclearDiscardsTheAccumulation : Prop :=
  (∀ s : State, ∃ f : FrStatusReg, exec .fclear s = .next { s with fr := f } ∧
    f.image = s.fr.image &&& 0xFE00FFFC#32 ∧ f.flen = 0#9 ∧ f.result = .none ∧ f.foutcome = s.fr.foutcome ∧
    f.favail = s.fr.favail ∧ f.overrun = s.fr.overrun ∧ f.ferr = s.fr.ferr) ∧
  ∀ s : State, s.fr.image = 0x00030001#32 → ∃ t : State, exec .fclear s = .next t ∧ t.fr.image = 0x00000000#32

/-- FPUSH, FCLEAR and FACK write neither STATUS nor CRC, and leave IBUF, OBUF and OBUF_LEN as they are
(43_framer.md R190). -/
def Obligations.SynchroniserCommandsLeaveTheCommandUnit : Prop :=
  ∀ (i : Instr) (s : State), commandUnit i = false → ∃ t : State, exec i s = .next t ∧
    t.status = s.status ∧ t.crcVal = s.crcVal ∧ t.obufLen = s.obufLen ∧ t.ibuf = s.ibuf ∧ t.obuf = s.obuf

/-- A trigger whose accumulation does not start with the marker is an ERROR with SCHEMA_ERROR: the frame synchroniser
looks for no start marker (43_framer.md R191). -/
def Obligations.GarbageBeforeAFrameIsNotSkipped : Prop :=
  ∀ (g : Byte) (s : State), 5 ≤ s.fr.flen.toNat → s.fbuf.read? 0 = some g → g ≠ Config.hw.marker →
    ∃ t : State, exec (.fpush Config.hw.marker) s = .next t ∧
      t.fr = ⟨.error, .schemaError, s.fr.favail, s.fr.overrun, true, 0#9⟩ ∧
      t.rxp = s.rxp ∧ t.rxpInfo = s.rxpInfo

/-- In a good state a trigger validates a buffer that ends with the marker; one that is VALID has exactly the declared
length, the strict total-length check never changes the result, and UNKNOWN_ERROR never results (43_framer.md R193). -/
def Obligations.TriggersValidateExactlyOneFrame : Prop :=
  ∀ (P : Params) (s : State) (f : List Byte) (strict : Bool), SynchroniserInv P s → f.length = s.fr.flen.toNat →
    5 ≤ f.length → s.fbuf.holds 0 f →
    ((validate P (f ++ [P.marker])).outcome = .valid →
      (f ++ [P.marker]).length = 6 + declaredLen (f ++ [P.marker])) ∧
    validate { P with strictTotalLength := strict } (f ++ [P.marker]) = validate P (f ++ [P.marker]) ∧
    (validate P (f ++ [P.marker])).outcome ≠ .unknownError

/-- Delivery of a valid frame pushed byte by byte from an empty accumulation: it is one FRAME result at its end marker,
exactly when none of its CRC bytes is a trigger; else the frame is lost as an ERROR with LENGTH_ERROR and its last one
or two bytes start a new accumulation (43_framer.md R192). -/
def Obligations.StreamDeliversFramesWithoutCrcTriggers : Prop :=
  ∀ (P : Params) (ident : Byte) (p : List Byte) (s : State), P.legal → Framable P ident p → s.fr.flen = 0#9 →
    (¬ crcTriggers P p →
      (∀ n, 0 < n → n < 6 + p.length → (pushAll P ((frame P ident p).take n) s).fr.result = .pending) ∧
      (pushAll P (frame P ident p) s).fr = ⟨.frame, .valid, true, s.fr.overrun || s.fr.favail, s.fr.ferr, 0#9⟩ ∧
      (pushAll P (frame P ident p) s).rxpInfo = ⟨BitVec.ofNat 8 p.length, ident⟩ ∧
      (∀ i, (pushAll P (frame P ident p) s).rxp.read? i = if i < p.length then p[i]? else s.rxp.read? i)) ∧
    (crcTriggers P p →
      (∀ n, 0 < n → n ≤ 6 + p.length → (pushAll P ((frame P ident p).take n) s).fr.result ≠ .frame) ∧
      (pushAll P (frame P ident p) s).fr =
        ⟨.pending, .lengthError, s.fr.favail, s.fr.overrun, true,
          if 2 ≤ p.length ∧ crcHi (crc16 crcInit p) = P.marker then 2#9 else 1#9⟩ ∧
      (pushAll P (frame P ident p) s).rxpInfo = s.rxpInfo ∧ (pushAll P (frame P ident p) s).rxp = s.rxp)

/-- Back-to-back frames stay aligned while each is deliverable: after any number of them the accumulation is empty, RXP
holds the last one, and OVERRUN tells whether one was overwritten (43_framer.md R195, R184). -/
def Obligations.BackToBackFramesStayAligned : Prop :=
  ∀ (P : Params) (fs : List (Byte × List Byte)) (ident : Byte) (p : List Byte) (s : State), P.legal →
    (∀ f ∈ fs ++ [(ident, p)], Framable P f.1 f.2 ∧ ¬ crcTriggers P f.2) → s.fr.flen = 0#9 →
    let t := pushAll P ((fs ++ [(ident, p)]).flatMap (fun f => frame P f.1 f.2)) s
    t.fr = ⟨.frame, .valid, true, s.fr.overrun || s.fr.favail || !fs.isEmpty, s.fr.ferr, 0#9⟩ ∧
    t.rxpInfo = ⟨BitVec.ofNat 8 p.length, ident⟩ ∧ t.rxp.holds 0 p

/-! ### Whole-machine rules -/

/-- UNKNOWN_ERROR is reported exactly for the listed caller-contract violations; CHECKSUM of an absent input is no error
and returns the initial value (60_exceptions.md R212). -/
def Obligations.UnknownErrorMeansACallerError : Prop :=
  (∀ (len : Nat) (chain : Bool) (s : State), ∃ t : State, exec (.checksum len true chain) s = .next t ∧
    t.status.outcome = .valid ∧ t.crcVal = if chain = true then s.crcVal else 0xFFFF#16) ∧
  ∀ (i : Instr) (s : State), commandUnit i = true → ∃ t : State, exec i s = .next t ∧
    (t.status.outcome = .unknownError ↔
      (∃ ident len pabs dabs, i = .encode ident len pabs dabs ∧
        (dabs = true ∨ (0 < len ∧ pabs = true) ∨ len > Config.hw.maxPayloadLen)) ∨
      (∃ len pabs, i = .validate len pabs ∧ (pabs = true ∨ len > Config.hw.maxFrameLen)) ∨
      (∃ len chain, i = .checksum len false chain ∧ len > Config.hw.maxFrameLen) ∨
      i ∈ reservedCommands)

/-- On every non-VALID outcome no buffer the host sees and no length register changes: a failed command writes STATUS
and, for VALIDATE, CRC; a failed push writes FR_STATUS, with FLEN = 0 (60_exceptions.md R213). -/
def Obligations.FailuresChangeOnlyTheReports : Prop :=
  ∀ (i : Instr) (s : State), ∃ t : State, exec i s = .next t ∧
    (commandUnit i = true → t.status.outcome ≠ .valid →
      t.ibuf = s.ibuf ∧ t.obuf = s.obuf ∧ t.obufLen = s.obufLen ∧ t.rxp = s.rxp ∧ t.rxpInfo = s.rxpInfo ∧
      t.fbuf = s.fbuf ∧ t.fr = s.fr ∧ ((∀ len pabs, i ≠ .validate len pabs) → t.crcVal = s.crcVal)) ∧
    (∀ b, i = .fpush b → t.fr.result = .error →
      t.ibuf = s.ibuf ∧ t.obuf = s.obuf ∧ t.obufLen = s.obufLen ∧ t.rxp = s.rxp ∧ t.rxpInfo = s.rxpInfo ∧
      t.status = s.status ∧ t.crcVal = s.crcVal ∧ t.fr.flen = 0#9)

/-- Which steps may write what: STATUS, CRC, OBUF and OBUF_LEN are written only by their commands, IBUF only by the host
through its window, RXP and RXP_INFO only by a pushed marker byte, FR_STATUS and FBUF only by the frame synchroniser, and
reset writes all of them (10_state.md R23 to R27, R29, R32). -/
def Obligations.OnlyTheNamedStepsWriteARegister : Prop :=
  ∀ (s t : State) (e : Event) (rest : List Event), s.inputs = e :: rest → step s = .next t → e ≠ .reset →
    (t.status ≠ s.status → ∃ i, Issues e i ∧ commandUnit i = true) ∧
    (t.crcVal ≠ s.crcVal → ∃ i, Issues e i ∧
      ((∃ len pabs chain, i = .checksum len pabs chain) ∨ (∃ len pabs, i = .validate len pabs) ∨
        ∃ ident len pabs dabs, i = .encode ident len pabs dabs)) ∧
    (t.obuf ≠ s.obuf ∨ t.obufLen ≠ s.obufLen → ∃ ident len pabs dabs, Issues e (.encode ident len pabs dabs)) ∧
    (t.ibuf ≠ s.ibuf → ∃ i, i < Config.hw.maxFrameLen ∧ WritesIbuf e i) ∧
    (t.rxp ≠ s.rxp ∨ t.rxpInfo ≠ s.rxpInfo → Pushes e Config.hw.marker) ∧
    (t.fbuf ≠ s.fbuf → ∃ b, Pushes e b) ∧
    (t.fr ≠ s.fr → (∃ b, Pushes e b) ∨ Issues e .fclear ∨ Issues e .fack)

/-- The two units share no mutable state: what a command does to its own unit depends on that unit alone, and it leaves
the other as it is (60_exceptions.md R222). The count of draws is the model's own (log entry 4): for the command unit the
two states agree on it too, since a command may read bytes that nothing has written; a frame-synchroniser command does not
depend on it where every accumulated byte was written, and then draws nothing. -/
def Obligations.UnitsDoNotInterfere : Prop :=
  ∀ (i : Instr) (s s' : State), ∃ t t' : State, exec i s = .next t ∧ exec i s' = .next t' ∧
    (commandUnit i = true →
      (SameCommandUnit s s' → SameCommandUnit t t') ∧
      t.fr = s.fr ∧ t.rxpInfo = s.rxpInfo ∧ t.rxp = s.rxp ∧ t.fbuf = s.fbuf) ∧
    (commandUnit i = false →
      (SameSynchroniser s s' → s.fbuf.covers s.fr.flen.toNat ∨ s.draws = s'.draws → SameSynchroniser t t') ∧
      (SameSynchroniser s s' → s.draws = s'.draws → t.draws = t'.draws) ∧
      (s.fbuf.covers s.fr.flen.toNat → t.draws = s.draws) ∧
      t.status = s.status ∧ t.crcVal = s.crcVal ∧ t.obufLen = s.obufLen ∧ t.ibuf = s.ibuf ∧ t.obuf = s.obuf)

/-- Sending and receiving are independent directions: where every accumulated byte was written, a command-unit command and
a frame-synchroniser command give the same state in either order, whatever of IBUF was written (60_exceptions.md
R222). -/
def Obligations.SendingAndReceivingCommute : Prop :=
  ∀ (i j : Instr) (s : State), commandUnit i = true → commandUnit j = false → s.fbuf.covers s.fr.flen.toNat →
    ∃ t u v : State, exec i s = .next t ∧ exec j t = .next v ∧ exec j s = .next u ∧ exec i u = .next v

/-- Every step keeps the buffers in their canonical form and within their capacity, and FLEN below it (10_state.md R29,
R33). -/
def Obligations.StepsKeepTheBuffersInv : Prop :=
  ∀ s t : State, BuffersInv Config.hw s → step s = .next t → BuffersInv Config.hw t

/-- Every step keeps STATUS at its reset value or at a report some command can make (10_state.md R23; 41_validator.md
R142; 60_exceptions.md R211). -/
def Obligations.StepsKeepTheStatusInv : Prop :=
  ∀ s t : State, StatusInv s → step s = .next t → StatusInv t

/-- Every step keeps what always holds of the frame synchroniser: FLEN below the capacity (10_state.md R33), no marker
byte accumulated at offset 5 or later, results, outcomes and flags that fit together, and a marker-free payload within
its bound in RXP (43_framer.md R183 to R189, R193). -/
def Obligations.StepsKeepTheSynchroniserInv : Prop :=
  ∀ s t : State, SynchroniserInv Config.hw s → step s = .next t → SynchroniserInv Config.hw t

/-- Every step keeps OBUF[0..OBUF_LEN) a frame, whatever the agents do (10_state.md R25, R29; 42_encoder.md R165). -/
def Obligations.StepsKeepAFrameInObuf : Prop :=
  ∀ s t : State, ObufInv Config.hw s → step s = .next t → ObufInv Config.hw t

/-- The four invariants hold after reset. -/
def Obligations.ResetMeetsTheInvariants : Prop :=
  BuffersInv Config.hw State.reset ∧ StatusInv State.reset ∧ SynchroniserInv Config.hw State.reset ∧
    ObufInv Config.hw State.reset
end

