-- ==== Sys2Proof/Laws/Crc.lean ====
section
/-! SUPPORT. The laws of the CRC function (spec/40_checksum.md R112, R114): empty input, one byte, concatenation, and
what a round and a byte step do to two registers. -/

namespace Sys2Proof.Machine

/-- The CRC of an empty input is the initial value (R112). -/
@[simp] theorem crc16_nil (r : Half) : crc16 r [] = r := rfl

@[simp] theorem crc16_cons (r : Half) (b : Byte) (s : List Byte) : crc16 r (b :: s) = crc16 (crcByte r b) s := rfl

/-- The CRC function continues from the register it is given (R114). -/
theorem crc16_append (r : Half) (s t : List Byte) : crc16 r (s ++ t) = crc16 (crc16 r s) t :=
  List.foldl_append

/-- A round is linear over XOR. -/
theorem crcRound_xor (a b : Half) : crcRound (a ^^^ b) = crcRound a ^^^ crcRound b := by
  unfold crcRound
  rw [BitVec.getLsbD_xor, BitVec.shiftLeft_xor_distrib]
  cases a.getLsbD 15 <;> cases b.getLsbD 15 <;> simp
  · rw [BitVec.xor_assoc]
  · rw [BitVec.xor_assoc, BitVec.xor_assoc, BitVec.xor_comm crcPoly]
  · rw [show (a <<< 1 ^^^ crcPoly) ^^^ (b <<< 1 ^^^ crcPoly) = a <<< 1 ^^^ b <<< 1 ^^^ (crcPoly ^^^ crcPoly) by ac_rfl]
    simp

/-- The low bit after a round is the top bit before it, since the polynomial has its constant term. -/
theorem crcRound_getLsbD_zero (a : Half) : (crcRound a).getLsbD 0 = a.getLsbD 15 := by
  unfold crcRound
  cases h : a.getLsbD 15 <;> simp [crcPoly]

/-- A round loses nothing: only zero goes to zero. -/
theorem crcRound_eq_zero {a : Half} (h : crcRound a = 0) : a = 0 := by
  have top : a.getLsbD 15 = false := by rw [← crcRound_getLsbD_zero, h]; rfl
  have shifted : a <<< 1 = 0 := by
    unfold crcRound at h
    rw [top] at h
    simpa using h
  apply BitVec.eq_of_getLsbD_eq
  intro i hi
  rcases Nat.lt_or_ge i 15 with h15 | h15
  · have := congrArg (fun x : Half => x.getLsbD (i + 1)) shifted
    rw [BitVec.getLsbD_eq_getElem hi]
    simpa [show i + 1 < 16 by omega] using this
  · have : i = 15 := by omega
    subst this
    simpa using top

theorem crcRounds_xor (n : Nat) (a b : Half) : crcRounds n (a ^^^ b) = crcRounds n a ^^^ crcRounds n b := by
  induction n generalizing a b with
  | zero => rfl
  | succ n ih => simp only [crcRounds, crcRound_xor, ih]

theorem crcRounds_eq_zero {n : Nat} {a : Half} (h : crcRounds n a = 0) : a = 0 := by
  induction n generalizing a with
  | zero => exact h
  | succ n ih => exact crcRound_eq_zero (ih h)

/-- Any number of rounds is injective. -/
theorem crcRounds_injective {n : Nat} {a b : Half} (h : crcRounds n a = crcRounds n b) : a = b := by
  have : crcRounds n (a ^^^ b) = 0 := by rw [crcRounds_xor, h, BitVec.xor_self]; rfl
  simpa using crcRounds_eq_zero this

/-- A byte step is injective in the register. -/
theorem crcByte_injective {a b : Half} {x : Byte} (h : crcByte a x = crcByte b x) : a = b := by
  have := crcRounds_injective h
  simpa using this

/-- The rest of a sequence keeps two registers apart. -/
theorem crc16_injective {a b : Half} {s : List Byte} (h : crc16 a s = crc16 b s) : a = b := by
  induction s generalizing a b with
  | nil => exact h
  | cons x s ih => exact crcByte_injective (ih h)

end Sys2Proof.Machine
end

