-- ==== Sys2Proof/Laws/Decode.lean ====
section
/-! SUPPORT. The laws of the command word (spec/30_encoding.md R95): what stands at each bit of a word made from fields,
and what each field of it reads. -/

namespace Sys2Proof

/-- Each bit of a command word made from its fields. -/
theorem getLsbD_commandWord (opc : BitVec 4) (ident : Byte) (len : Nat) (pabs dabs chain : Bool) (i : Nat) :
    (commandWord opc ident len pabs dabs chain).getLsbD i =
      if i < 4 then opc.getLsbD i
      else if i < 8 then false
      else if i < 16 then ident.getLsbD (i - 8)
      else if i < 25 then (BitVec.ofNat 9 len).getLsbD (i - 16)
      else if i = 25 then pabs
      else if i = 26 then dabs
      else if i = 27 then chain
      else false := by
  unfold commandWord
  simp only [BitVec.getLsbD_append, BitVec.getLsbD_ofBool, BitVec.getLsbD_zero]
  by_cases h1 : i < 4
  · simp [h1]
  by_cases h2 : i < 8
  · simp [h1, h2, show i - 4 < 4 by omega]
  by_cases h3 : i < 16
  · simp only [h1, h2, h3, show ¬ i - 4 < 4 by omega, show i - 4 - 4 = i - 8 by omega, if_false, if_true]
    simp [show i - 8 < 8 by omega]
  by_cases h4 : i < 25
  · simp only [h1, h2, h3, h4, show ¬ i - 4 < 4 by omega, show ¬ i - 4 - 4 < 8 by omega,
      show i - 4 - 4 - 8 = i - 16 by omega, if_false, if_true]
    simp [show i - 16 < 9 by omega]
  by_cases h5 : i = 25
  · subst h5; simp
  by_cases h6 : i = 26
  · subst h6; simp
  by_cases h7 : i = 27
  · subst h7; simp
  simp only [h1, h2, h3, h4, h5, h6, h7, show ¬ i - 4 < 4 by omega, show ¬ i - 4 - 4 < 8 by omega,
    show ¬ i - 4 - 4 - 8 < 9 by omega, show ¬ i - 4 - 4 - 8 - 9 < 1 by omega,
    show ¬ i - 4 - 4 - 8 - 9 - 1 < 1 by omega, show ¬ i - 4 - 4 - 8 - 9 - 1 - 1 < 1 by omega, if_false]

@[simp] theorem fieldOpc_commandWord (opc : BitVec 4) (ident : Byte) (len : Nat) (pabs dabs chain : Bool) :
    fieldOpc (commandWord opc ident len pabs dabs chain) = opc := by
  apply BitVec.eq_of_getLsbD_eq
  intro i hi
  simp only [fieldOpc, BitVec.getLsbD_extractLsb', getLsbD_commandWord, Nat.zero_add]
  simp [hi]

@[simp] theorem fieldId_commandWord (opc : BitVec 4) (ident : Byte) (len : Nat) (pabs dabs chain : Bool) :
    fieldId (commandWord opc ident len pabs dabs chain) = ident := by
  apply BitVec.eq_of_getLsbD_eq
  intro i hi
  simp only [fieldId, BitVec.getLsbD_extractLsb', getLsbD_commandWord]
  simp [hi, show ¬ 8 + i < 4 by omega, show ¬ 8 + i < 8 by omega, show 8 + i < 16 by omega]

theorem fieldLen_commandWord (opc : BitVec 4) (ident : Byte) {len : Nat} (pabs dabs chain : Bool) (h : len < lenRange) :
    fieldLen (commandWord opc ident len pabs dabs chain) = len := by
  have : (commandWord opc ident len pabs dabs chain).extractLsb' 16 9 = BitVec.ofNat 9 len := by
    apply BitVec.eq_of_getLsbD_eq
    intro i hi
    simp only [BitVec.getLsbD_extractLsb', getLsbD_commandWord]
    simp [hi, show ¬ 16 + i < 4 by omega, show ¬ 16 + i < 8 by omega, show ¬ 16 + i < 16 by omega,
      show 16 + i < 25 by omega]
  unfold fieldLen
  rw [this, BitVec.toNat_ofNat]
  exact Nat.mod_eq_of_lt h

@[simp] theorem fieldPabs_commandWord (opc : BitVec 4) (ident : Byte) (len : Nat) (pabs dabs chain : Bool) :
    fieldPabs (commandWord opc ident len pabs dabs chain) = pabs := by
  simp only [fieldPabs, getLsbD_commandWord]; simp

@[simp] theorem fieldDabs_commandWord (opc : BitVec 4) (ident : Byte) (len : Nat) (pabs dabs chain : Bool) :
    fieldDabs (commandWord opc ident len pabs dabs chain) = dabs := by
  simp only [fieldDabs, getLsbD_commandWord]; simp

@[simp] theorem fieldChain_commandWord (opc : BitVec 4) (ident : Byte) (len : Nat) (pabs dabs chain : Bool) :
    fieldChain (commandWord opc ident len pabs dabs chain) = chain := by
  simp only [fieldChain, getLsbD_commandWord]; simp

/-- The opcode field is the four opcode bits the decoder looks at. -/
theorem fieldOpc_eq_bits (w : Word) :
    fieldOpc w = BitVec.ofBool (w.getLsbD 3) ++ BitVec.ofBool (w.getLsbD 2) ++ BitVec.ofBool (w.getLsbD 1) ++
      BitVec.ofBool (w.getLsbD 0) := by
  unfold fieldOpc
  apply BitVec.eq_of_getLsbD_eq
  intro i hi
  simp only [BitVec.getLsbD_append, BitVec.getLsbD_extractLsb', BitVec.getLsbD_ofBool]
  match i, hi with
  | 0, _ => simp
  | 1, _ => simp
  | 2, _ => simp
  | 3, _ => simp

/-- The decoded command has the word's opcode. -/
theorem opc_decode (w : Word) : (decode w).opc = fieldOpc w := by
  rw [fieldOpc_eq_bits]
  unfold decode
  cases w.getLsbD 3 <;> cases w.getLsbD 2 <;> cases w.getLsbD 1 <;> cases w.getLsbD 0 <;> rfl

end Sys2Proof
end

