-- ==== Sys2Proof/Laws/Frame.lean ====
section
/-! SUPPORT. The laws of the frame layout (spec/30_encoding.md R90): its length, and what stands at each offset. -/

namespace Sys2Proof.Machine

variable {P : Params} {ident : Byte} {p : List Byte}

@[simp] theorem length_frame (P : Params) (ident : Byte) (p : List Byte) :
    (frame P ident p).length = frameLen p.length := by
  simp [frame, frameLen, hdrLen, crcLen, ftrLen]; omega

theorem frameLen_eq (L : Nat) : frameLen L = 6 + L := by
  simp [frameLen, hdrLen, crcLen, ftrLen]; omega

/-- A frame, byte by byte. -/
theorem frame_eq (P : Params) (ident : Byte) (p : List Byte) :
    frame P ident p = P.marker :: ident :: BitVec.ofNat 8 p.length ::
      (p ++ [crcHi (crc16 crcInit p), crcLo (crc16 crcInit p), P.marker]) := rfl

@[simp] theorem byteAt_cons_zero (b : Byte) (s : List Byte) : byteAt (b :: s) 0 = b := rfl
@[simp] theorem byteAt_cons_succ (b : Byte) (s : List Byte) (i : Nat) : byteAt (b :: s) (i + 1) = byteAt s i := rfl

/-- A buffer of at least three bytes: its declared length is its third byte, and its payload window is what follows. -/
theorem declaredLen_cons (a b L : Byte) (s : List Byte) : declaredLen (a :: b :: L :: s) = L.toNat := rfl

theorem payloadOf_cons (a b L : Byte) (s : List Byte) : payloadOf (a :: b :: L :: s) = s.take L.toNat := rfl

theorem byteAt_append_right (s t : List Byte) (i : Nat) : byteAt (s ++ t) (s.length + i) = byteAt t i := by
  simp [byteAt, List.getElem?_append_right]

theorem byteAt_append_length (s t : List Byte) : byteAt (s ++ t) s.length = byteAt t 0 := by
  simpa using byteAt_append_right s t 0

/-- The big-endian CRC bytes put the CRC value together again (R69). -/
theorem crcHi_crcLo (c : Half) : ((crcHi c).setWidth 16 <<< 8) ||| (crcLo c).setWidth 16 = c := by
  apply BitVec.eq_of_getLsbD_eq
  intro i hi
  simp only [crcHi, crcLo, BitVec.getLsbD_or, BitVec.getLsbD_shiftLeft, BitVec.getLsbD_setWidth,
    BitVec.getLsbD_extractLsb']
  rcases Nat.lt_or_ge i 8 with h | h
  · simp [hi, h]
  · simp [hi, Nat.not_lt.mpr h, show i - 8 < 8 by omega, show i - 8 < 16 by omega, show 8 + (i - 8) = i by omega]

/-- Two bytes and the CRC value they spell. -/
theorem crcBytes_eq_iff (hi lo : Byte) (c : Half) :
    ((hi.setWidth 16 <<< 8) ||| lo.setWidth 16) = c ↔ hi = crcHi c ∧ lo = crcLo c := by
  constructor
  · rintro rfl
    constructor
    · apply BitVec.eq_of_getLsbD_eq
      intro i hi'
      simp [crcHi, hi', show 8 + i < 16 by omega]
    · apply BitVec.eq_of_getLsbD_eq
      intro i hi'
      simp [crcLo, hi', show i < 16 by omega]
  · rintro ⟨rfl, rfl⟩
    exact crcHi_crcLo c

/-- A buffer in which a frame's header, a window of the declared length, two CRC bytes and one more byte stand, whatever
follows them. -/
theorem receivedCrc_of_layout (a b L hi lo e : Byte) (p t : List Byte) (h : p.length = L.toNat) :
    receivedCrc (a :: b :: L :: (p ++ hi :: lo :: e :: t)) = (hi.setWidth 16 <<< 8) ||| lo.setWidth 16 := by
  have h0 : byteAt (p ++ hi :: lo :: e :: t) L.toNat = hi := by rw [← h, byteAt_append_length]; rfl
  have h1 : byteAt (p ++ hi :: lo :: e :: t) (L.toNat + 1) = lo := by rw [← h, byteAt_append_right]; rfl
  simp only [receivedCrc, declaredLen_cons, hdrLen]
  rw [show 3 + L.toNat = L.toNat + 1 + 1 + 1 by omega]
  simp only [byteAt_cons_succ, h0, h1]

theorem endByte_of_layout (a b L hi lo e : Byte) (p t : List Byte) (h : p.length = L.toNat) :
    byteAt (a :: b :: L :: (p ++ hi :: lo :: e :: t)) (hdrLen + L.toNat + crcLen) = e := by
  rw [show hdrLen + L.toNat + crcLen = (p.length + 2) + 1 + 1 + 1 by simp [hdrLen, crcLen, h]; omega]
  simp only [byteAt_cons_succ, byteAt_append_right]
  rfl

theorem payloadOf_of_layout (a b L : Byte) (p t : List Byte) (h : p.length = L.toNat) :
    payloadOf (a :: b :: L :: (p ++ t)) = p := by
  rw [payloadOf_cons, ← h, List.take_left']
  rfl

/-- A payload of at most 255 bytes has its length in the length byte. -/
theorem toNat_lengthByte {n : Nat} (h : n ≤ 255) : (BitVec.ofNat 8 n).toNat = n := by
  simp; omega

theorem maxPayloadLen_le (P : Params) : P.maxPayloadLen ≤ 255 := Nat.min_le_right _ _

theorem maxPayloadLen_fits (P : Params) (h : 6 ≤ P.maxFrameLen) : 6 + P.maxPayloadLen ≤ P.maxFrameLen := by
  unfold Params.maxPayloadLen; omega

end Sys2Proof.Machine
end

