-- ==== Sys2Proof/Laws/Memory.lean ====
section
/-! SUPPORT. The laws of a byte buffer: read after write, the canonical form kept, and what a slice reads. -/

namespace Sys2Proof.Machine

variable {m : Memory} {i j n k : Nat} {v b : Byte} {bs : List Byte}

theorem Memory.read?_write_same (m : Memory) (i : Nat) (v : Byte) : (m.write i v).read? i = some v := by
  induction m with
  | nil => simp [Memory.write, Memory.read?]
  | cons c m ih =>
    unfold Memory.write
    split
    · simp [Memory.read?]
    · split
      · simp [Memory.read?]
      · rename_i h1 h2
        have : c.1 ≠ i := fun h => h2 h.symm
        simp [Memory.read?, this, ih]

theorem Memory.read?_write_other (m : Memory) (v : Byte) (h : j ≠ i) : (m.write i v).read? j = m.read? j := by
  induction m with
  | nil => simp [Memory.write, Memory.read?, Ne.symm h]
  | cons c m ih =>
    unfold Memory.write
    split
    · simp [Memory.read?, Ne.symm h]
    · split
      · rename_i h1 h2
        subst h2
        simp [Memory.read?, Ne.symm h]
      · simp [Memory.read?, ih]

/-- One byte of a written buffer. -/
theorem Memory.read?_write (m : Memory) (i j : Nat) (v : Byte) :
    (m.write i v).read? j = if j = i then some v else m.read? j := by
  split
  · next h => subst h; exact m.read?_write_same j v
  · next h => exact m.read?_write_other v h

/-- One byte of a buffer into which a sequence was written. -/
theorem Memory.read?_writeBytes (bs : List Byte) (m : Memory) (i j : Nat) :
    (m.writeBytes i bs).read? j = if i ≤ j ∧ j < i + bs.length then bs[j - i]? else m.read? j := by
  induction bs generalizing m i with
  | nil => simp [Memory.writeBytes]
  | cons b bs ih =>
    simp only [Memory.writeBytes, ih, Memory.read?_write, List.length_cons]
    by_cases h1 : i + 1 ≤ j ∧ j < i + 1 + bs.length
    · have : i ≤ j ∧ j < i + (bs.length + 1) := by omega
      simp only [h1, this, and_self, if_true]
      have : j - i = (j - (i + 1)) + 1 := by omega
      rw [this, List.getElem?_cons_succ]
    · by_cases h2 : j = i
      · subst h2; simp
      · have : ¬ (i ≤ j ∧ j < i + (bs.length + 1)) := by omega
        simp only [h1, h2, this, if_false]

/-- A write keeps the smallest index bound of a canonical form. -/
theorem Memory.forall_write {p : Host.Cell → Prop} (hv : p (i, v)) (hm : ∀ c ∈ m, p c) : ∀ c ∈ m.write i v, p c := by
  induction m with
  | nil => simpa [Memory.write] using hv
  | cons c m ih =>
    have hc : p c := hm c (by simp)
    have hm' : ∀ d ∈ m, p d := fun d hd => hm d (by simp [hd])
    unfold Memory.write
    split
    · simp only [List.mem_cons]
      rintro d (rfl | rfl | hd)
      exacts [hv, hc, hm' d hd]
    · split
      · simp only [List.mem_cons]
        rintro d (rfl | hd)
        exacts [hv, hm' d hd]
      · simp only [List.mem_cons]
        rintro d (rfl | hd)
        exacts [hc, ih hm' d hd]

/-- A write keeps the canonical form. -/
theorem Memory.write_wf (i : Nat) (v : Byte) (h : m.wf) : (m.write i v).wf := by
  induction m with
  | nil => simp [Memory.write, Memory.wf]
  | cons c m ih =>
    have hm := (List.pairwise_cons.mp h)
    unfold Memory.write
    split
    · rename_i h1
      refine List.pairwise_cons.mpr ⟨?_, h⟩
      simp only [List.mem_cons]
      rintro d (rfl | hd)
      · exact h1
      · exact Nat.lt_trans h1 (hm.1 d hd)
    · split
      · rename_i h1 h2
        exact List.pairwise_cons.mpr ⟨fun d hd => by have := hm.1 d hd; simpa [h2] using this, hm.2⟩
      · rename_i h1 h2
        exact List.pairwise_cons.mpr ⟨Memory.forall_write (p := fun d => c.1 < d.1) (by simp; omega) hm.1, ih hm.2⟩

/-- Writing a sequence keeps the canonical form. -/
theorem Memory.writeBytes_wf (bs : List Byte) (i : Nat) (h : m.wf) : (m.writeBytes i bs).wf := by
  induction bs generalizing m i with
  | nil => exact h
  | cons b bs ih => exact ih (i + 1) (Memory.write_wf i b h)

theorem Memory.write_within (h : m.within n) (hi : i < n) : (m.write i v).within n :=
  Memory.forall_write (p := fun c => c.1 < n) hi h

theorem Memory.writeBytes_within (bs : List Byte) (i : Nat) (h : m.within n) (hi : i + bs.length ≤ n) :
    (m.writeBytes i bs).within n := by
  induction bs generalizing m i with
  | nil => exact h
  | cons b bs ih =>
    simp only [List.length_cons] at hi
    exact ih (i + 1) (Memory.write_within h (by omega)) (by omega)

/-- In a canonical form, what the reads give is all there is: equal reads are equal data. -/
theorem Memory.ext_of_wf {m₁ m₂ : Memory} (h₁ : m₁.wf) (h₂ : m₂.wf) (h : ∀ i, m₁.read? i = m₂.read? i) : m₁ = m₂ := by
  have none_of_lt : ∀ {m : Memory} {i : Nat}, (∀ c ∈ m, i < c.1) → m.read? i = none := by
    intro m i hm
    induction m with
    | nil => rfl
    | cons c m ih =>
      have : c.1 ≠ i := by have := hm c (by simp); omega
      simp [Memory.read?, this, ih (fun d hd => hm d (by simp [hd]))]
  induction m₁ generalizing m₂ with
  | nil =>
    cases m₂ with
    | nil => rfl
    | cons c m₂ => have := h c.1; simp [Memory.read?] at this
  | cons c m₁ ih =>
    cases m₂ with
    | nil => have := h c.1; simp [Memory.read?] at this
    | cons d m₂ =>
      have hc := List.pairwise_cons.mp h₁
      have hd := List.pairwise_cons.mp h₂
      have hcd : c.1 = d.1 := by
        rcases Nat.lt_trichotomy c.1 d.1 with hlt | heq | hgt
        · have := h c.1
          rw [none_of_lt (m := d :: m₂)] at this
          · simp [Memory.read?] at this
          · simp only [List.mem_cons]
            rintro e (rfl | he)
            exacts [hlt, Nat.lt_trans hlt (hd.1 e he)]
        · exact heq
        · have := h d.1
          rw [none_of_lt (m := c :: m₁)] at this
          · simp [Memory.read?] at this
          · simp only [List.mem_cons]
            rintro e (rfl | he)
            exacts [hgt, Nat.lt_trans hgt (hc.1 e he)]
      have hv : c.2 = d.2 := by have := h c.1; simpa [Memory.read?, hcd] using this
      have : m₁ = m₂ := by
        refine ih hc.2 hd.2 fun i => ?_
        by_cases hi : c.1 = i
        · rw [none_of_lt (fun e he => hi ▸ hc.1 e he), none_of_lt (fun e he => hi ▸ hcd ▸ hd.1 e he)]
        · have := h i
          simpa [Memory.read?, hi, hcd ▸ hi] using this
      rw [this, Prod.ext hcd hv]

/-! ### Slices -/

theorem Memory.readByte_of_some (h : m.read? i = some b) (k : Nat) : m.readByte i k = (b, k) := by
  simp [Memory.readByte, h]

theorem Memory.readByte_of_none (h : m.read? i = none) (k : Nat) : m.readByte i k = (Config.freeByte k, k + 1) := by
  simp [Memory.readByte, h]

@[simp] theorem Memory.readRange_zero (m : Memory) (i k : Nat) : m.readRange i 0 k = ([], k) := rfl

theorem Memory.readRange_succ (m : Memory) (i n k : Nat) :
    m.readRange i (n + 1) k =
      ((m.readByte i k).1 :: (m.readRange (i + 1) n (m.readByte i k).2).1,
        (m.readRange (i + 1) n (m.readByte i k).2).2) := rfl

/-- A slice has as many bytes as were asked for. -/
@[simp] theorem Memory.length_readRange (m : Memory) (i n k : Nat) : (m.readRange i n k).1.length = n := by
  induction n generalizing i k with
  | zero => rfl
  | succ n ih => simp [Memory.readRange_succ, ih]

/-- A slice of written bytes is those bytes, and draws nothing. -/
theorem Memory.readRange_of_holds (bs : List Byte) (m : Memory) (i k : Nat) (h : m.holds i bs) :
    m.readRange i bs.length k = (bs, k) := by
  induction bs generalizing i with
  | nil => rfl
  | cons b bs ih =>
    have h0 : m.read? i = some b := by simpa using h 0 (by simp)
    have h1 : m.holds (i + 1) bs := fun j hj => by
      have := h (j + 1) (by simpa using hj)
      rwa [List.getElem?_cons_succ, ← Nat.add_assoc, Nat.add_right_comm] at this
    rw [List.length_cons, Memory.readRange_succ, Memory.readByte_of_some h0, ih _ h1]

/-- A slice whose bytes are all written draws nothing, and the buffer holds it. -/
theorem Memory.readRange_of_covers (m : Memory) (n k : Nat) (h : m.covers n) :
    ∃ bs : List Byte, bs.length = n ∧ m.holds 0 bs ∧ m.readRange 0 n k = (bs, k) := by
  have key : ∃ bs : List Byte, bs.length = n ∧ m.holds 0 bs := by
    induction n with
    | zero => exact ⟨[], rfl, by simp [Memory.holds]⟩
    | succ n ih =>
      obtain ⟨bs, hl, hb⟩ := ih fun j hj => h j (by omega)
      obtain ⟨b, hb'⟩ := Option.isSome_iff_exists.mp (h n (by omega))
      refine ⟨bs ++ [b], by simp [hl], fun j hj => ?_⟩
      simp only [List.length_append, List.length_cons, List.length_nil] at hj
      by_cases hjn : j < bs.length
      · rw [List.getElem?_append_left hjn]; exact hb j hjn
      · have : j = n := by omega
        subst this
        rw [List.getElem?_append_right (by omega)]
        simpa [hl] using hb'
  obtain ⟨bs, hl, hb⟩ := key
  refine ⟨bs, hl, hb, ?_⟩
  have := Memory.readRange_of_holds bs m 0 k hb
  rwa [hl] at this

/-- Where a written byte stands, the slice has it. -/
theorem Memory.getElem?_readRange_of_some (m : Memory) (i n k : Nat) (hj : j < n) (h : m.read? (i + j) = some b) :
    (m.readRange i n k).1[j]? = some b := by
  induction n generalizing i j k with
  | zero => omega
  | succ n ih =>
    rw [Memory.readRange_succ]
    cases j with
    | zero => simp [Memory.readByte_of_some (by simpa using h)]
    | succ j =>
      rw [List.getElem?_cons_succ]
      exact ih (i + 1) _ (by omega) (by rw [Nat.add_right_comm, Nat.add_assoc]; exact h)

/-- A buffer into which `bs` was written holds it. -/
theorem Memory.holds_writeBytes (m : Memory) (i : Nat) (bs : List Byte) : (m.writeBytes i bs).holds i bs := by
  intro j hj
  rw [Memory.read?_writeBytes, if_pos ⟨by omega, by omega⟩]
  congr 1
  omega

theorem Memory.holds_append {as : List Byte} (ha : m.holds i as) (hb : m.holds (i + as.length) bs) :
    m.holds i (as ++ bs) := by
  intro j hj
  rw [List.length_append] at hj
  by_cases h : j < as.length
  · rw [List.getElem?_append_left h]; exact ha j h
  · rw [List.getElem?_append_right (by omega), ← hb (j - as.length) (by omega)]
    congr 1
    omega

end Sys2Proof.Machine
end

