-- ==== Sys2Proof/Laws/State.lean ====
section
/-! SUPPORT. One lemma per field and named state update, each true by rfl, so that no later proof unfolds a record
update. -/

namespace Sys2Proof.Machine

/-! ### State.report -/

@[simp] theorem report_status (s : State) (op : BitVec 4) (o : ValidationOutcome) :
    (s.report op o).status = reportOf op o := rfl
@[simp] theorem report_crcVal (s : State) (op : BitVec 4) (o : ValidationOutcome) :
    (s.report op o).crcVal = s.crcVal := rfl
@[simp] theorem report_obufLen (s : State) (op : BitVec 4) (o : ValidationOutcome) :
    (s.report op o).obufLen = s.obufLen := rfl
@[simp] theorem report_fr (s : State) (op : BitVec 4) (o : ValidationOutcome) :
    (s.report op o).fr = s.fr := rfl
@[simp] theorem report_rxpInfo (s : State) (op : BitVec 4) (o : ValidationOutcome) :
    (s.report op o).rxpInfo = s.rxpInfo := rfl
@[simp] theorem report_ibuf (s : State) (op : BitVec 4) (o : ValidationOutcome) :
    (s.report op o).ibuf = s.ibuf := rfl
@[simp] theorem report_obuf (s : State) (op : BitVec 4) (o : ValidationOutcome) :
    (s.report op o).obuf = s.obuf := rfl
@[simp] theorem report_rxp (s : State) (op : BitVec 4) (o : ValidationOutcome) :
    (s.report op o).rxp = s.rxp := rfl
@[simp] theorem report_fbuf (s : State) (op : BitVec 4) (o : ValidationOutcome) :
    (s.report op o).fbuf = s.fbuf := rfl
@[simp] theorem report_draws (s : State) (op : BitVec 4) (o : ValidationOutcome) :
    (s.report op o).draws = s.draws := rfl
@[simp] theorem report_inputs (s : State) (op : BitVec 4) (o : ValidationOutcome) :
    (s.report op o).inputs = s.inputs := rfl
@[simp] theorem report_response (s : State) (op : BitVec 4) (o : ValidationOutcome) :
    (s.report op o).response = s.response := rfl

/-! ### State.respond -/

@[simp] theorem respond_status (s : State) (r : Option BusResponse) :
    (s.respond r).status = s.status := rfl
@[simp] theorem respond_crcVal (s : State) (r : Option BusResponse) :
    (s.respond r).crcVal = s.crcVal := rfl
@[simp] theorem respond_obufLen (s : State) (r : Option BusResponse) :
    (s.respond r).obufLen = s.obufLen := rfl
@[simp] theorem respond_fr (s : State) (r : Option BusResponse) :
    (s.respond r).fr = s.fr := rfl
@[simp] theorem respond_rxpInfo (s : State) (r : Option BusResponse) :
    (s.respond r).rxpInfo = s.rxpInfo := rfl
@[simp] theorem respond_ibuf (s : State) (r : Option BusResponse) :
    (s.respond r).ibuf = s.ibuf := rfl
@[simp] theorem respond_obuf (s : State) (r : Option BusResponse) :
    (s.respond r).obuf = s.obuf := rfl
@[simp] theorem respond_rxp (s : State) (r : Option BusResponse) :
    (s.respond r).rxp = s.rxp := rfl
@[simp] theorem respond_fbuf (s : State) (r : Option BusResponse) :
    (s.respond r).fbuf = s.fbuf := rfl
@[simp] theorem respond_draws (s : State) (r : Option BusResponse) :
    (s.respond r).draws = s.draws := rfl
@[simp] theorem respond_inputs (s : State) (r : Option BusResponse) :
    (s.respond r).inputs = s.inputs := rfl
@[simp] theorem respond_response (s : State) (r : Option BusResponse) :
    (s.respond r).response = r := rfl

/-! ### deliver -/

@[simp] theorem deliver_status (f : List Byte) (s : State) :
    (deliver f s).status = s.status := rfl
@[simp] theorem deliver_crcVal (f : List Byte) (s : State) :
    (deliver f s).crcVal = s.crcVal := rfl
@[simp] theorem deliver_obufLen (f : List Byte) (s : State) :
    (deliver f s).obufLen = s.obufLen := rfl
@[simp] theorem deliver_fr (f : List Byte) (s : State) :
    (deliver f s).fr = s.fr.delivered := rfl
@[simp] theorem deliver_rxpInfo (f : List Byte) (s : State) :
    (deliver f s).rxpInfo = ⟨byteAt f 2, byteAt f 1⟩ := rfl
@[simp] theorem deliver_ibuf (f : List Byte) (s : State) :
    (deliver f s).ibuf = s.ibuf := rfl
@[simp] theorem deliver_obuf (f : List Byte) (s : State) :
    (deliver f s).obuf = s.obuf := rfl
@[simp] theorem deliver_rxp (f : List Byte) (s : State) :
    (deliver f s).rxp = s.rxp.writeBytes 0 (payloadOf f) := rfl
@[simp] theorem deliver_fbuf (f : List Byte) (s : State) :
    (deliver f s).fbuf = s.fbuf := rfl
@[simp] theorem deliver_draws (f : List Byte) (s : State) :
    (deliver f s).draws = s.draws := rfl
@[simp] theorem deliver_inputs (f : List Byte) (s : State) :
    (deliver f s).inputs = s.inputs := rfl
@[simp] theorem deliver_response (f : List Byte) (s : State) :
    (deliver f s).response = s.response := rfl

/-! ### resetBlock -/

@[simp] theorem resetBlock_status (s : State) :
    (resetBlock s).status = State.reset.status := rfl
@[simp] theorem resetBlock_crcVal (s : State) :
    (resetBlock s).crcVal = State.reset.crcVal := rfl
@[simp] theorem resetBlock_obufLen (s : State) :
    (resetBlock s).obufLen = State.reset.obufLen := rfl
@[simp] theorem resetBlock_fr (s : State) :
    (resetBlock s).fr = State.reset.fr := rfl
@[simp] theorem resetBlock_rxpInfo (s : State) :
    (resetBlock s).rxpInfo = State.reset.rxpInfo := rfl
@[simp] theorem resetBlock_ibuf (s : State) :
    (resetBlock s).ibuf = State.reset.ibuf := rfl
@[simp] theorem resetBlock_obuf (s : State) :
    (resetBlock s).obuf = State.reset.obuf := rfl
@[simp] theorem resetBlock_rxp (s : State) :
    (resetBlock s).rxp = State.reset.rxp := rfl
@[simp] theorem resetBlock_fbuf (s : State) :
    (resetBlock s).fbuf = State.reset.fbuf := rfl
@[simp] theorem resetBlock_draws (s : State) :
    (resetBlock s).draws = s.draws := rfl
@[simp] theorem resetBlock_inputs (s : State) :
    (resetBlock s).inputs = s.inputs := rfl
@[simp] theorem resetBlock_response (s : State) :
    (resetBlock s).response = s.response := rfl

/-! ### The FR_STATUS updates -/

@[simp] theorem delivered_result (f : FrStatusReg) :
    (f.delivered).result = .frame := rfl
@[simp] theorem delivered_foutcome (f : FrStatusReg) :
    (f.delivered).foutcome = .valid := rfl
@[simp] theorem delivered_favail (f : FrStatusReg) :
    (f.delivered).favail = true := rfl
@[simp] theorem delivered_overrun (f : FrStatusReg) :
    (f.delivered).overrun = (f.overrun || f.favail) := rfl
@[simp] theorem delivered_ferr (f : FrStatusReg) :
    (f.delivered).ferr = f.ferr := rfl
@[simp] theorem delivered_flen (f : FrStatusReg) :
    (f.delivered).flen = 0#9 := rfl
@[simp] theorem failed_result (f : FrStatusReg) (o : ValidationOutcome) :
    (f.failed o).result = .error := rfl
@[simp] theorem failed_foutcome (f : FrStatusReg) (o : ValidationOutcome) :
    (f.failed o).foutcome = o := rfl
@[simp] theorem failed_favail (f : FrStatusReg) (o : ValidationOutcome) :
    (f.failed o).favail = f.favail := rfl
@[simp] theorem failed_overrun (f : FrStatusReg) (o : ValidationOutcome) :
    (f.failed o).overrun = f.overrun := rfl
@[simp] theorem failed_ferr (f : FrStatusReg) (o : ValidationOutcome) :
    (f.failed o).ferr = true := rfl
@[simp] theorem failed_flen (f : FrStatusReg) (o : ValidationOutcome) :
    (f.failed o).flen = 0#9 := rfl
@[simp] theorem accumulated_result (f : FrStatusReg) (n : Nat) :
    (f.accumulated n).result = .pending := rfl
@[simp] theorem accumulated_foutcome (f : FrStatusReg) (n : Nat) :
    (f.accumulated n).foutcome = f.foutcome := rfl
@[simp] theorem accumulated_favail (f : FrStatusReg) (n : Nat) :
    (f.accumulated n).favail = f.favail := rfl
@[simp] theorem accumulated_overrun (f : FrStatusReg) (n : Nat) :
    (f.accumulated n).overrun = f.overrun := rfl
@[simp] theorem accumulated_ferr (f : FrStatusReg) (n : Nat) :
    (f.accumulated n).ferr = f.ferr := rfl
@[simp] theorem accumulated_flen (f : FrStatusReg) (n : Nat) :
    (f.accumulated n).flen = BitVec.ofNat 9 n := rfl
@[simp] theorem acknowledged_result (f : FrStatusReg) :
    (f.acknowledged).result = f.result := rfl
@[simp] theorem acknowledged_foutcome (f : FrStatusReg) :
    (f.acknowledged).foutcome = f.foutcome := rfl
@[simp] theorem acknowledged_favail (f : FrStatusReg) :
    (f.acknowledged).favail = false := rfl
@[simp] theorem acknowledged_overrun (f : FrStatusReg) :
    (f.acknowledged).overrun = false := rfl
@[simp] theorem acknowledged_ferr (f : FrStatusReg) :
    (f.acknowledged).ferr = false := rfl
@[simp] theorem acknowledged_flen (f : FrStatusReg) :
    (f.acknowledged).flen = f.flen := rfl
@[simp] theorem cleared_result (f : FrStatusReg) :
    (f.cleared).result = .none := rfl
@[simp] theorem cleared_foutcome (f : FrStatusReg) :
    (f.cleared).foutcome = f.foutcome := rfl
@[simp] theorem cleared_favail (f : FrStatusReg) :
    (f.cleared).favail = f.favail := rfl
@[simp] theorem cleared_overrun (f : FrStatusReg) :
    (f.cleared).overrun = f.overrun := rfl
@[simp] theorem cleared_ferr (f : FrStatusReg) :
    (f.cleared).ferr = f.ferr := rfl
@[simp] theorem cleared_flen (f : FrStatusReg) :
    (f.cleared).flen = 0#9 := rfl

/-! ### The reports in STATUS -/

@[simp] theorem reportOf_outcome (op : BitVec 4) (o : ValidationOutcome) : (reportOf op o).outcome = o := rfl
@[simp] theorem reportOf_vstate (op : BitVec 4) (o : ValidationOutcome) : (reportOf op o).vstate = .start := rfl
@[simp] theorem reportOf_vran (op : BitVec 4) (o : ValidationOutcome) : (reportOf op o).vran = false := rfl
@[simp] theorem reportOf_done (op : BitVec 4) (o : ValidationOutcome) : (reportOf op o).done = true := rfl
@[simp] theorem reportOf_lastop (op : BitVec 4) (o : ValidationOutcome) : (reportOf op o).lastop = op := rfl
@[simp] theorem reportOfValidate_outcome (r : ValidateResult) : (reportOfValidate r).outcome = r.outcome := rfl
@[simp] theorem reportOfValidate_vstate (r : ValidateResult) : (reportOfValidate r).vstate = r.stop := rfl
@[simp] theorem reportOfValidate_vran (r : ValidateResult) : (reportOfValidate r).vran = r.ran := rfl
@[simp] theorem reportOfValidate_done (r : ValidateResult) : (reportOfValidate r).done = true := rfl
@[simp] theorem reportOfValidate_lastop (r : ValidateResult) : (reportOfValidate r).lastop = 0x2#4 := rfl

end Sys2Proof.Machine
end

