-- ==== Sys2Proof/Laws/Ops.lean ====
section
/-! SUPPORT. One lemma per shared operation: everything it can do, for later proofs to cite. -/

namespace Sys2Proof.Machine

variable {P : Params} {s : State} {b : Byte}

/-! ### The input operand -/

@[simp] theorem length_inputSlice (len : Nat) (s : State) : (inputSlice len s).1.length = len :=
  Memory.length_readRange _ _ _ _

/-- Where IBUF holds the bytes, the operand is those bytes and nothing is drawn. -/
theorem inputSlice_of_holds {bs : List Byte} (h : s.ibuf.holds 0 bs) : inputSlice bs.length s = (bs, s.draws) :=
  Memory.readRange_of_holds bs s.ibuf 0 s.draws h

/-! ### The encoder's writes -/

/-- What OBUF holds after ENCODE, byte by byte: the frame, and beyond it what it held before (R30, R161). -/
theorem read?_encodeInto (P : Params) (m : Memory) (ident : Byte) (p : List Byte) (i : Nat) :
    (encodeInto P m ident p).read? i =
      if i < frameLen p.length then (frame P ident p)[i]? else m.read? i := by
  simp only [encodeInto, Memory.read?_write, Memory.read?_writeBytes, frameLen_eq, hdrLen, crcLen]
  rw [frame_eq]
  match i with
  | 0 => split_ifs <;> first | omega | simp
  | 1 => split_ifs <;> first | omega | simp
  | 2 => split_ifs <;> first | omega | simp
  | j + 3 =>
    simp only [List.getElem?_cons_succ]
    by_cases h : j < p.length
    · rw [List.getElem?_append_left h]
      split_ifs <;> first | omega | simp
    · rw [List.getElem?_append_right (by omega)]
      obtain ⟨d, rfl⟩ : ∃ d, j = p.length + d := ⟨j - p.length, by omega⟩
      rw [Nat.add_sub_cancel_left]
      match d with
      | 0 => split_ifs <;> first | omega | simp
      | 1 => split_ifs <;> first | omega | simp
      | 2 => split_ifs <;> first | omega | simp
      | d + 3 => split_ifs <;> first | omega | rfl | contradiction

/-- ENCODE's writes keep OBUF in canonical form. -/
theorem encodeInto_wf {m : Memory} {ident : Byte} {p : List Byte} (h : m.wf) : (encodeInto P m ident p).wf := by
  unfold encodeInto
  exact Memory.write_wf _ _ (Memory.write_wf _ _ (Memory.write_wf _ _ (Memory.writeBytes_wf _ _
    (Memory.write_wf _ _ (Memory.write_wf _ _ (Memory.write_wf _ _ h))))))

/-- ENCODE's writes stay within the frame's length. -/
theorem encodeInto_within {m : Memory} {ident : Byte} {p : List Byte} {n : Nat} (h : m.within n)
    (hn : frameLen p.length ≤ n) : (encodeInto P m ident p).within n := by
  rw [frameLen_eq] at hn
  unfold encodeInto
  refine Memory.write_within (Memory.write_within (Memory.write_within (Memory.writeBytes_within _ _
    (Memory.write_within (Memory.write_within (Memory.write_within h ?_) ?_) ?_) ?_) ?_) ?_) ?_
  all_goals try simp only [hdrLen, crcLen]
  all_goals omega

/-! ### The push step -/

/-- The state in which a push classifies, overflows or accumulates: the byte is in the buffer. -/
def appended (b : Byte) (s : State) : State := { s with fbuf := s.fbuf.write s.fr.flen.toNat b }

/-- Everything a push can do (R181): a trigger, an overflow, or one more byte. -/
theorem push_cases (P : Params) (b : Byte) (s : State) :
    (triggers P b (s.fr.flen.toNat + 1) = true ∧
      push P b s = trigger P (s.fr.flen.toNat + 1) (appended b s)) ∨
    (triggers P b (s.fr.flen.toNat + 1) = false ∧ s.fr.flen.toNat + 1 = P.maxFrameLen ∧
      push P b s = { appended b s with fr := s.fr.failed .lengthError }) ∨
    (triggers P b (s.fr.flen.toNat + 1) = false ∧ s.fr.flen.toNat + 1 ≠ P.maxFrameLen ∧
      push P b s = { appended b s with fr := s.fr.accumulated (s.fr.flen.toNat + 1) }) := by
  unfold push
  by_cases h : triggers P b (s.fr.flen.toNat + 1) = true
  · exact .inl ⟨h, by simp [h, appended]⟩
  · have h' : triggers P b (s.fr.flen.toNat + 1) = false := by simpa using h
    by_cases hn : s.fr.flen.toNat + 1 = P.maxFrameLen
    · refine .inr (.inl ⟨h', hn, ?_⟩)
      dsimp only
      rw [if_neg h, if_pos hn]
      rfl
    · refine .inr (.inr ⟨h', hn, ?_⟩)
      dsimp only
      rw [if_neg h, if_neg hn]
      rfl

/-- The candidate buffer a trigger classifies. -/
def candidate (n : Nat) (s : State) : List Byte := (s.fbuf.readRange 0 n s.draws).1

@[simp] theorem length_candidate (n : Nat) (s : State) : (candidate n s).length = n :=
  Memory.length_readRange _ _ _ _

/-- Everything a trigger can do (R184, R185): deliver the frame, or fail with the validator's outcome. -/
theorem trigger_cases (P : Params) (n : Nat) (s : State) :
    ((validate P (candidate n s)).outcome = .valid ∧
      trigger P n s = { deliver (candidate n s) s with draws := (s.fbuf.readRange 0 n s.draws).2 }) ∨
    ((validate P (candidate n s)).outcome ≠ .valid ∧
      trigger P n s =
        { s with
          fr := s.fr.failed (validate P (candidate n s)).outcome
          draws := (s.fbuf.readRange 0 n s.draws).2 }) := by
  unfold trigger candidate
  by_cases h : (validate P (s.fbuf.readRange 0 n s.draws).1).outcome = .valid
  · exact .inl ⟨h, by simp [h]⟩
  · exact .inr ⟨h, by simp [h]⟩

/-- A push leaves the command unit's registers and buffers, and the model's inputs and response, as they are (R181). -/
theorem push_frame (P : Params) (b : Byte) (s : State) :
    (push P b s).status = s.status ∧ (push P b s).crcVal = s.crcVal ∧ (push P b s).obufLen = s.obufLen ∧
    (push P b s).ibuf = s.ibuf ∧ (push P b s).obuf = s.obuf ∧ (push P b s).inputs = s.inputs ∧
    (push P b s).response = s.response ∧ (push P b s).fbuf = s.fbuf.write s.fr.flen.toNat b := by
  rcases push_cases P b s with ⟨-, h⟩ | ⟨-, -, h⟩ | ⟨-, -, h⟩
  · rw [h]
    rcases trigger_cases P (s.fr.flen.toNat + 1) (appended b s) with ⟨-, h⟩ | ⟨-, h⟩ <;> rw [h] <;>
      simp [appended, deliver]
  · rw [h]; simp [appended]
  · rw [h]; simp [appended]

/-- Where every accumulated byte was written, so is every byte of the accumulation with one more. -/
theorem covers_appended (b : Byte) (h : s.fbuf.covers s.fr.flen.toNat) :
    (appended b s).fbuf.covers (s.fr.flen.toNat + 1) := by
  intro j hj
  rw [appended, Memory.read?_write]
  split_ifs
  · rfl
  · exact h j (by omega)

/-- Where every accumulated byte was written, a push draws nothing (R32). -/
theorem push_draws_of_covers (P : Params) (b : Byte) (h : s.fbuf.covers s.fr.flen.toNat) :
    (push P b s).draws = s.draws := by
  rcases push_cases P b s with ⟨-, h'⟩ | ⟨-, -, h'⟩ | ⟨-, -, h'⟩ <;> rw [h']
  · obtain ⟨bs, -, -, hr⟩ := Memory.readRange_of_covers _ _ (appended b s).draws (covers_appended b h)
    rcases trigger_cases P (s.fr.flen.toNat + 1) (appended b s) with ⟨-, ht⟩ | ⟨-, ht⟩ <;> rw [ht] <;> simp only [hr] <;>
      rfl
  · rfl
  · rfl

@[simp] theorem pushAll_nil (P : Params) (s : State) : pushAll P [] s = s := rfl

@[simp] theorem pushAll_cons (P : Params) (b : Byte) (bs : List Byte) (s : State) :
    pushAll P (b :: bs) s = pushAll P bs (push P b s) := rfl

theorem pushAll_append (P : Params) (as bs : List Byte) (s : State) :
    pushAll P (as ++ bs) s = pushAll P bs (pushAll P as s) := List.foldl_append

theorem triggers_iff (P : Params) (b : Byte) (n : Nat) : triggers P b n = true ↔ b = P.marker ∧ 6 ≤ n := by
  simp [triggers, minFrameLen]

theorem triggers_eq_false (P : Params) (b : Byte) (n : Nat) : triggers P b n = false ↔ (b = P.marker → n < 6) := by
  rw [← Bool.not_eq_true, triggers_iff, not_and, Nat.not_le]

end Sys2Proof.Machine
end

