-- ==== Sys2Proof/Laws/PerInstr.lean ====
section
/-! SUPPORT. The per-instruction family `EncodedFields`: the word of a command carries its opcode in OPC and 0 in the
reserved bits [7:4] and [31:28] (spec/30_encoding.md R95, R98). -/

namespace Sys2Proof.Laws.EncodedFields

/-- The word of the command has its opcode in bits [3:0] and its reserved bits 0. -/
def Statement (i : Instr) : Prop :=
  fieldOpc (encode i) = i.opc ∧ (encode i).extractLsb' 4 4 = 0#4 ∧ (encode i).extractLsb' 28 4 = 0#4

theorem reserved_bits_zero (opc : BitVec 4) (ident : Byte) (len : Nat) (pabs dabs chain : Bool) :
    (commandWord opc ident len pabs dabs chain).extractLsb' 4 4 = 0#4 ∧
      (commandWord opc ident len pabs dabs chain).extractLsb' 28 4 = 0#4 := by
  constructor <;> apply BitVec.eq_of_getLsbD_eq <;> intro i hi <;>
    simp only [BitVec.getLsbD_extractLsb', getLsbD_commandWord]
  · simp [show 4 + i < 8 by omega]
  · simp [show ¬ 28 + i < 4 by omega, show ¬ 28 + i < 8 by omega, show ¬ 28 + i < 16 by omega,
      show ¬ 28 + i < 25 by omega, show ¬ 28 + i = 25 by omega, show ¬ 28 + i = 26 by omega,
      show ¬ 28 + i = 27 by omega]

theorem of_commandWord (opc : BitVec 4) (ident : Byte) (len : Nat) (pabs dabs chain : Bool) :
    fieldOpc (commandWord opc ident len pabs dabs chain) = opc ∧
      (commandWord opc ident len pabs dabs chain).extractLsb' 4 4 = 0#4 ∧
      (commandWord opc ident len pabs dabs chain).extractLsb' 28 4 = 0#4 :=
  ⟨fieldOpc_commandWord _ _ _ _ _ _, reserved_bits_zero _ _ _ _ _ _⟩

theorem rsvd0 : Statement .rsvd0 := of_commandWord _ _ _ _ _ _
theorem checksum (len : Nat) (pabs chain : Bool) : Statement (.checksum len pabs chain) := of_commandWord _ _ _ _ _ _
theorem validate (len : Nat) (pabs : Bool) : Statement (.validate len pabs) := of_commandWord _ _ _ _ _ _
theorem encode (ident : Byte) (len : Nat) (pabs dabs : Bool) : Statement (.encode ident len pabs dabs) :=
  of_commandWord _ _ _ _ _ _
theorem fpush (b : Byte) : Statement (.fpush b) := of_commandWord _ _ _ _ _ _
theorem fclear : Statement .fclear := of_commandWord _ _ _ _ _ _
theorem fack : Statement .fack := of_commandWord _ _ _ _ _ _
theorem rsvd7 : Statement .rsvd7 := of_commandWord _ _ _ _ _ _
theorem rsvd8 : Statement .rsvd8 := of_commandWord _ _ _ _ _ _
theorem rsvd9 : Statement .rsvd9 := of_commandWord _ _ _ _ _ _
theorem rsvdA : Statement .rsvdA := of_commandWord _ _ _ _ _ _
theorem rsvdB : Statement .rsvdB := of_commandWord _ _ _ _ _ _
theorem rsvdC : Statement .rsvdC := of_commandWord _ _ _ _ _ _
theorem rsvdD : Statement .rsvdD := of_commandWord _ _ _ _ _ _
theorem rsvdE : Statement .rsvdE := of_commandWord _ _ _ _ _ _
theorem rsvdF : Statement .rsvdF := of_commandWord _ _ _ _ _ _

end Sys2Proof.Laws.EncodedFields
end

