-- ==== Sys2Proof/Laws/Step.lean ====
section
/-! SUPPORT. What a command and a step can do, said once: every command answers a next state, and a step is one agent's
step. -/

namespace Sys2Proof.Machine

/-- Every command answers a next state, and leaves the steps still to come and the last bus response as they are. -/
theorem exec_answers_next (i : Instr) (s : State) :
    ∃ t, exec i s = .next t ∧ t.inputs = s.inputs ∧ t.response = s.response := by
  cases i with
  | checksum len pabs chain =>
    refine ⟨_, rfl, ?_⟩
    unfold checksumCommand
    dsimp only
    split_ifs <;> simp
  | validate len pabs =>
    refine ⟨_, rfl, ?_⟩
    unfold validateCommand
    dsimp only
    split_ifs <;> simp
  | encode ident len pabs dabs =>
    refine ⟨_, rfl, ?_⟩
    unfold encodeCommand
    dsimp only
    split_ifs <;> simp
  | fpush b =>
    have h := push_frame Config.hw b s
    exact ⟨_, rfl, h.2.2.2.2.2.1, h.2.2.2.2.2.2.1⟩
  | fclear => exact ⟨_, rfl, rfl, rfl⟩
  | fack => exact ⟨_, rfl, rfl, rfl⟩
  | rsvd0 => exact ⟨_, rfl, rfl, rfl⟩
  | rsvd7 => exact ⟨_, rfl, rfl, rfl⟩
  | rsvd8 => exact ⟨_, rfl, rfl, rfl⟩
  | rsvd9 => exact ⟨_, rfl, rfl, rfl⟩
  | rsvdA => exact ⟨_, rfl, rfl, rfl⟩
  | rsvdB => exact ⟨_, rfl, rfl, rfl⟩
  | rsvdC => exact ⟨_, rfl, rfl, rfl⟩
  | rsvdD => exact ⟨_, rfl, rfl, rfl⟩
  | rsvdE => exact ⟨_, rfl, rfl, rfl⟩
  | rsvdF => exact ⟨_, rfl, rfl, rfl⟩

theorem step_of_nil {s : State} (h : s.inputs = []) : step s = .next s := by
  unfold step; rw [h]

theorem step_of_cons {s : State} {e : Event} {rest : List Event} (h : s.inputs = e :: rest) :
    step s = agentStep e { s with inputs := rest } := by
  unfold step; rw [h]

/-! ### The host bus -/

@[simp] theorem reaches_offset (off : Offset) : (BusAddr.offset off).reaches = some off := rfl

/-- The host's address P_BASE plus an offset reaches the block at that offset (R13, R61). -/
theorem reaches_in_window (off : Offset) : (BusAddr.absolute (Config.pBase + off.toNat)).reaches = some off := by
  have := off.isLt
  show windowOffset _ _ = _
  unfold windowOffset windowSize
  rw [if_pos (by omega)]
  congr 1
  apply BitVec.eq_of_toNat_eq
  rw [BitVec.toNat_ofNat]
  unfold Config.pBase
  omega

/-- A host address outside the window does not reach the block (R61). -/
theorem reaches_out_of_window {addr : Nat} (h : addr < Config.pBase ∨ Config.pBase + 0x4000 ≤ addr) :
    (BusAddr.absolute addr).reaches = none := by
  show windowOffset _ _ = _
  unfold windowOffset windowSize
  rw [if_neg (by omega)]

/-- The access check, read as R63 writes it. -/
theorem legalAccess_iff (width : Nat) (off : Offset) :
    legalAccess width off = true ↔ width = 32 ∧ off.extractLsb' 0 2 = 0#2 := by
  simp [legalAccess]

/-- Alignment to 4, as a number. -/
theorem aligned_iff (off : Offset) : off.extractLsb' 0 2 = 0#2 ↔ off.toNat % 4 = 0 := by
  rw [← BitVec.toNat_inj]; simp

/-- What a read returns does not depend on the waiting inputs nor on the last response. -/
@[simp] theorem readPlace_congr (P : Params) (s : State) (is : List Event) (r : Option BusResponse) (p : Place) :
    readPlace P { s with inputs := is, response := r } p = readPlace P s p := by
  cases p <;> rfl

/-- A read makes at most one draw (R31). -/
theorem readPlace_draws (P : Params) (s : State) (p : Place) :
    (readPlace P s p).2 = s.draws ∨ (readPlace P s p).2 = s.draws + 1 := by
  have key : ∀ m i, (readWindow P m i s.draws).2 = s.draws ∨ (readWindow P m i s.draws).2 = s.draws + 1 := by
    intro m i
    unfold readWindow Memory.readByte
    split
    · split <;> simp
    · simp
  cases p <;> first | exact key _ _ | exact .inl rfl

/-- The entry of an offset in a buffer window (R62). -/
theorem placeAt_ibuf {i : Nat} (h : i < 1024) : placeAt (BitVec.ofNat 14 (0x1000 + 4 * i)) = .ibuf i := by
  unfold placeAt
  simp only [BitVec.toNat_ofNat]
  rw [show (0x1000 + 4 * i) % 2 ^ 14 = 0x1000 + 4 * i by omega]
  split_ifs <;> first | omega | (congr 1; omega)

theorem placeAt_obuf {i : Nat} (h : i < 1024) : placeAt (BitVec.ofNat 14 (0x2000 + 4 * i)) = .obuf i := by
  unfold placeAt
  simp only [BitVec.toNat_ofNat]
  rw [show (0x2000 + 4 * i) % 2 ^ 14 = 0x2000 + 4 * i by omega]
  split_ifs <;> first | omega | (congr 1; omega)

theorem placeAt_rxp {i : Nat} (h : i < 1024) : placeAt (BitVec.ofNat 14 (0x3000 + 4 * i)) = .rxp i := by
  unfold placeAt
  simp only [BitVec.toNat_ofNat]
  rw [show (0x3000 + 4 * i) % 2 ^ 14 = 0x3000 + 4 * i by omega]
  split_ifs <;> first | omega | (congr 1; omega)

/-- CMD is the entry at offset 0 and nowhere else (R62). -/
theorem placeAt_eq_cmd (off : Offset) : placeAt off = .cmd ↔ off = 0#14 := by
  constructor
  · intro h
    unfold placeAt at h
    dsimp only at h
    split_ifs at h
    rename_i h0 h1
    exact BitVec.eq_of_toNat_eq (by simpa using h1)
  · rintro rfl; decide

/-- Everything a host write can do: not reach the block, be a BusError, run a command, or write an entry (R61, R63, R66,
R67). -/
theorem hostWrite_cases (width : Nat) (at_ : BusAddr) (v : Word) (s : State) :
    (at_.reaches = none ∧ hostWrite width at_ v s = .next (s.respond none)) ∨
    (∃ off, at_.reaches = some off ∧ legalAccess width off = false ∧
      hostWrite width at_ v s = .next (s.respond (some (.busError off)))) ∨
    (at_.reaches = some 0#14 ∧ width = 32 ∧
      hostWrite width at_ v s = exec (decode v) (s.respond (some .writeDone))) ∨
    (∃ off, at_.reaches = some off ∧ legalAccess width off = true ∧ off ≠ 0#14 ∧
      hostWrite width at_ v s = .next (writePlace Config.hw v (s.respond (some .writeDone)) (placeAt off))) := by
  cases hr : at_.reaches with
  | none => exact .inl ⟨rfl, by unfold hostWrite; rw [hr]⟩
  | some off =>
    right
    cases hl : legalAccess width off with
    | false => exact .inl ⟨off, rfl, hl, by unfold hostWrite; rw [hr]; simp [hl]⟩
    | true =>
      right
      by_cases h0 : off = 0#14
      · subst h0
        refine .inl ⟨rfl, ?_, ?_⟩
        · simp [legalAccess] at hl; exact hl
        · unfold hostWrite; rw [hr]; simp only [hl, if_true]; rw [(placeAt_eq_cmd _).mpr rfl]
      · refine .inr ⟨off, rfl, hl, h0, ?_⟩
        have hp : placeAt off ≠ .cmd := fun h => h0 ((placeAt_eq_cmd off).mp h)
        unfold hostWrite; rw [hr]; simp only [hl, if_true]

/-- Everything a host read can do: not reach the block, be a BusError, or return an entry's word. Only the response and
the count of draws change (R61, R63, R68). -/
theorem hostRead_cases (width : Nat) (at_ : BusAddr) (s : State) :
    (at_.reaches = none ∧ hostRead width at_ s = s.respond none) ∨
    (∃ off, at_.reaches = some off ∧ legalAccess width off = false ∧
      hostRead width at_ s = s.respond (some (.busError off))) ∨
    (∃ off, at_.reaches = some off ∧ legalAccess width off = true ∧
      hostRead width at_ s =
        { s with
          draws := (readPlace Config.hw s (placeAt off)).2
          response := some (.readData (readPlace Config.hw s (placeAt off)).1) }) := by
  cases hr : at_.reaches with
  | none => exact .inl ⟨rfl, by unfold hostRead; rw [hr]⟩
  | some off =>
    right
    cases hl : legalAccess width off with
    | false => exact .inl ⟨off, rfl, hl, by unfold hostRead; rw [hr]; simp [hl]⟩
    | true => exact .inr ⟨off, rfl, hl, by unfold hostRead; rw [hr]; simp [hl]⟩

/-- Everything a step can do, with the event that makes it: nothing, a read or an access that changes nothing of the
block, reset, a pushed byte, a command, or one byte written to IBUF. -/
theorem step_cases {s t : State} (h : step s = .next t) :
    (s.inputs = [] ∧ t = s) ∨
    ∃ (e : Event) (rest : List Event), s.inputs = e :: rest ∧
      ((∃ r k, t = { s with inputs := rest, response := r, draws := k }) ∨
      (e = .reset ∧ t = resetBlock { s with inputs := rest }) ∨
      (∃ b, e = .portByte b ∧ t = push Config.hw b { s with inputs := rest }) ∨
      (∃ i, Safety.Issues e i ∧ exec i { s with inputs := rest, response := some .writeDone } = .next t) ∨
      (∃ i v, Safety.WritesIbuf e i ∧ i < Config.hw.maxFrameLen ∧
        t = { s with inputs := rest, response := some .writeDone, ibuf := s.ibuf.write i v })) := by
  cases hi : s.inputs with
  | nil => rw [step_of_nil hi] at h; cases h; exact .inl ⟨rfl, rfl⟩
  | cons e rest =>
    rw [step_of_cons hi] at h
    refine .inr ⟨e, rest, rfl, ?_⟩
    cases e with
    | hostRead width at_ =>
      cases h
      refine .inl ?_
      rcases hostRead_cases width at_ { s with inputs := rest } with ⟨-, h⟩ | ⟨_, -, -, h⟩ | ⟨_, -, -, h⟩ <;>
        rw [h] <;> exact ⟨_, _, rfl⟩
    | hostWrite width at_ v =>
      change hostWrite width at_ v { s with inputs := rest } = .next t at h
      rcases hostWrite_cases width at_ v { s with inputs := rest } with
        ⟨-, h'⟩ | ⟨_, -, -, h'⟩ | ⟨hr, rfl, h'⟩ | ⟨off, hr, hl, -, h'⟩ <;> rw [h'] at h
      · cases h; exact .inl ⟨_, _, rfl⟩
      · cases h; exact .inl ⟨_, _, rfl⟩
      · exact .inr (.inr (.inr (.inl ⟨_, ⟨at_, v, rfl, hr, rfl⟩, h⟩)))
      · cases h
        have hw : width = 32 := ((legalAccess_iff _ _).mp hl).1
        subst hw
        cases hp : placeAt off with
        | ibuf i =>
          by_cases hc : i < Config.hw.maxFrameLen
          · refine .inr (.inr (.inr (.inr ⟨i, v.setWidth 8, ⟨at_, v, off, rfl, hr, hl, hp⟩, hc, ?_⟩)))
            simp only [writePlace, hc, if_true]; rfl
          · refine .inl ⟨some .writeDone, s.draws, ?_⟩
            simp only [writePlace, hc, if_false]; rfl
        | _ => exact .inl ⟨some .writeDone, s.draws, rfl⟩
    | portByte b => cases h; exact .inr (.inr (.inl ⟨b, rfl, rfl⟩))
    | reset => cases h; exact .inr (.inl ⟨rfl, rfl⟩)

end Sys2Proof.Machine
end

