-- ==== Sys2Proof/Tests/Slice0.lean ====
section
/-! SUPPORT. Tests: the well-formedness checks, the decoding of words written out from spec/30_encoding.md R95, vectors of
spec/95_test_vectors.md (named by their row), and for each statement with hypotheses a witness that meets them all. -/

namespace Sys2Proof.Tests

open Sys2Proof Sys2Proof.Machine Sys2Proof.Safety

/-! ### Well-formedness: one ill-formed term for each check, refused (R95: LEN is 9 bits) -/

theorem test_checksum_length_512_is_ill_formed : (Instr.checksum 512 false false).wellFormed = false := by decide
theorem test_validate_length_512_is_ill_formed : (Instr.validate 512 false).wellFormed = false := by decide
theorem test_encode_length_512_is_ill_formed : (Instr.encode 0x02#8 512 false false).wellFormed = false := by decide
theorem test_length_511_is_well_formed :
    (Instr.checksum 511 true true).wellFormed && (Instr.validate 511 true).wellFormed &&
      (Instr.encode 0xFF#8 511 true true).wellFormed = true := by decide

/-! ### Decoding: words written bit by bit as [31:28] CHAIN DABS PABS LEN ID [7:4] OPC (R95, R97, R107) -/

theorem test_decode_rsvd0 : decode 0b0000_0_0_0_000000000_00000000_0000_0000#32 = .rsvd0 := by decide
theorem test_decode_checksum :
    decode 0b0000_1_0_0_000000001_00000000_0000_0001#32 = .checksum 1 false true := by decide
theorem test_decode_checksum_length_top_bit :
    decode 0b0000_0_0_1_100000000_00000000_0000_0001#32 = .checksum 256 true false := by decide
theorem test_decode_validate :
    decode 0b0000_0_0_1_000000110_00000000_0000_0010#32 = .validate 6 true := by decide
theorem test_decode_encode :
    decode 0b0000_0_1_0_000000011_00000010_0000_0011#32 = .encode 0x02#8 3 false true := by decide
-- Row E14: the reserved bits [7:4] and [31:28] are ignored (R98).
theorem test_decode_encode_reserved_bits_set :
    decode 0b1111_0_0_0_000000011_00000010_1111_0011#32 = .encode 0x02#8 3 false false := by decide
theorem test_decode_fpush : decode 0b0000_0_0_0_000000000_01111110_0000_0100#32 = .fpush 0x7E#8 := by decide
-- The fields FPUSH does not use are ignored (R98).
theorem test_decode_fpush_unused_fields_set :
    decode 0b0000_1_1_1_111111111_10000001_0000_0100#32 = .fpush 0x81#8 := by decide
theorem test_decode_fclear : decode 0b0000_0_0_0_000000000_00000000_0000_0101#32 = .fclear := by decide
theorem test_decode_fack : decode 0b0000_0_0_0_000000000_00000000_0000_0110#32 = .fack := by decide
theorem test_decode_rsvd7 : decode 0b0000_0_0_0_000000000_00000000_0000_0111#32 = .rsvd7 := by decide
theorem test_decode_rsvd8 : decode 0b0000_0_0_0_000000000_00000000_0000_1000#32 = .rsvd8 := by decide
theorem test_decode_rsvd9 : decode 0b0000_0_0_0_000000000_00000000_0000_1001#32 = .rsvd9 := by decide
theorem test_decode_rsvdA : decode 0b0000_0_0_0_000000000_00000000_0000_1010#32 = .rsvdA := by decide
theorem test_decode_rsvdB : decode 0b0000_0_0_0_000000000_00000000_0000_1011#32 = .rsvdB := by decide
theorem test_decode_rsvdC : decode 0b0000_0_0_0_000000000_00000000_0000_1100#32 = .rsvdC := by decide
theorem test_decode_rsvdD : decode 0b0000_0_0_0_000000000_00000000_0000_1101#32 = .rsvdD := by decide
theorem test_decode_rsvdE : decode 0b0000_0_0_0_000000000_00000000_0000_1110#32 = .rsvdE := by decide
theorem test_decode_rsvdF : decode 0b0000_0_0_0_000000000_00000000_0000_1111#32 = .rsvdF := by decide

-- The words of R107, encoded.
theorem test_encode_words :
    encode (.checksum 1 false true) = 0x08010001#32 ∧ encode (.validate 258 false) = 0x01020002#32 ∧
    encode (.encode 0x00#8 1 true true) = 0x06010003#32 ∧ encode (.fpush 0x7E#8) = 0x00007E04#32 := by decide

theorem test_decode_bytes_little_endian_lanes :
    decodeBytes [0x03#8, 0x02#8, 0x03#8, 0x00#8, 0x55#8] = .ok (.encode 0x02#8 3 false false, [0x55#8]) := by rfl
theorem test_decode_bytes_truncated : decodeBytes [0x03#8, 0x02#8, 0x03#8] = .error .truncated := by rfl
theorem test_decode_table_word : decodeTableWord 32 0x00030203 = some (.encode 0x02#8 3 false false) := by decide

/-! ### The state machine's helpers -/

/-- What a step that answered a next state shows of it. -/
def see {α : Type} (f : State → α) (r : Host.Outcome State Fault Refusal) : Option α :=
  match r with
  | .next t => some (f t)
  | .fault _ => none
  | .refused _ => none

/-- Reset, with these bytes in IBUF from index 0. -/
def loaded (bs : List Byte) : State := { State.reset with ibuf := Memory.writeBytes [] 0 bs }

/-- Reset, with these bytes accumulated in the frame synchroniser. -/
def accumulating (bs : List Byte) : State :=
  { State.reset with
    fbuf := Memory.writeBytes [] 0 bs
    fr := { State.reset.fr with result := .pending, flen := BitVec.ofNat 9 bs.length } }

/-- STATUS and CRC as the host reads them. -/
def results (t : State) : Word × Word := (t.status.image, crcImage t.crcVal)

/-! ### Vectors of 95_test_vectors.md, one step each -/

-- Rows C9, C13, C14.
theorem test_crc_check_value :
    crc16 0xFFFF#16 [0x31#8, 0x32#8, 0x33#8, 0x34#8, 0x35#8, 0x36#8, 0x37#8, 0x38#8, 0x39#8] = 0x29B1#16 := by
  decide +kernel
theorem test_crc_deadbeef : crc16 0xFFFF#16 [0xDE#8, 0xAD#8, 0xBE#8, 0xEF#8] = 0x4097#16 := by decide +kernel
theorem test_crc_zero_result : crc16 0xFFFF#16 [0xFF#8, 0xFF#8] = 0x0000#16 := by decide +kernel

-- Row K5, from CRC = 0x2165 of row K4.
theorem test_checksum_chain :
    see results (exec (.checksum 2 false true) { loaded [0x6C#8, 0x6F#8] with crcVal := 0x2165#16 }) =
      some (0x00001100#32, 0x0000DADA#32) := by decide +kernel
-- Rows K10, K11: the length check, which an absent input does not meet.
theorem test_checksum_length_check :
    see results (exec (.checksum 259 false false) { State.reset with crcVal := 0x42DB#16 }) =
        some (0x00001104#32, 0x000042DB#32) ∧
      see results (exec (.checksum 300 true false) State.reset) = some (0x00001100#32, 0x0000FFFF#32) := by
  decide +kernel

-- Row V13: CRC holds the recomputed value.
theorem test_validate_crc_error :
    see results (exec (.validate 9 false)
      (loaded [0x7E#8, 0x02#8, 0x03#8, 0x00#8, 0x01#8, 0x02#8, 0xDE#8, 0xEF#8, 0x7E#8])) =
        some (0x000021C3#32, 0x0000DFEF#32) := by decide +kernel
-- Rows V16, V11: a trailing byte is accepted; a marker in the payload comes before a wrong CRC.
theorem test_validate_tail_and_priority :
    see results (exec (.validate 7 false) (loaded [0x7E#8, 0x02#8, 0x00#8, 0xFF#8, 0xFF#8, 0x7E#8, 0x55#8])) =
        some (0x000021E0#32, 0x0000FFFF#32) ∧
      see results (exec (.validate 7 false) (loaded [0x7E#8, 0x02#8, 0x01#8, 0x7E#8, 0x00#8, 0x00#8, 0x7E#8])) =
        some (0x000021B2#32, 0x0000FFFF#32) := by decide +kernel
-- Row V26, with P_STRICT_TOTAL_LENGTH = true.
theorem test_validate_strict_total_length :
    see results (.next (validateCommand { Config.hw with strictTotalLength := true } 7 false
      (loaded [0x7E#8, 0x02#8, 0x00#8, 0xFF#8, 0xFF#8, 0x7E#8, 0x55#8]))) =
        some (0x000021E2#32, 0x0000FFFF#32) := by decide +kernel

-- Row E2.
theorem test_encode_frame :
    see (fun t => (t.obuf, t.obufLen)) (exec (.encode 0x02#8 3 false false) (loaded [0x00#8, 0x01#8, 0x02#8])) =
      some (Memory.writeBytes [] 0 [0x7E#8, 0x02#8, 0x03#8, 0x00#8, 0x01#8, 0x02#8, 0xDF#8, 0xEF#8, 0x7E#8], 9#9) := by
  decide +kernel
-- Rows E3, E5: an absent payload is legal only with length 0.
theorem test_encode_absent_payload :
    see results (exec (.encode 0x02#8 0 true false) State.reset) = some (0x00003100#32, 0x0000FFFF#32) ∧
      see results (exec (.encode 0x00#8 1 true false) (loaded [0x01#8])) = some (0x00003104#32, 0x0000FFFF#32) := by
  decide +kernel

-- The last push of row F2.
theorem test_fpush_delivers :
    see (fun t => (t.fr.image, t.rxpInfo.image, t.rxp)) (exec (.fpush 0x7E#8)
      (accumulating [0x7E#8, 0x02#8, 0x03#8, 0x00#8, 0x01#8, 0x02#8, 0xDF#8, 0xEF#8])) =
        some (0x00000102#32, 0x00000203#32, Memory.writeBytes [] 0 [0x00#8, 0x01#8, 0x02#8]) := by decide +kernel
-- The push of row F6 at which the lost frame's CRC low byte is the trigger.
theorem test_fpush_early_trigger :
    see (fun t => (t.fr.image, t.rxpInfo.image)) (exec (.fpush 0x7E#8)
      (accumulating [0x7E#8, 0x05#8, 0x01#8, 0x4A#8, 0x08#8])) = some (0x00000423#32, 0x00000000#32) := by
  decide +kernel

/-- FR_STATUS of row F3 and of row F14. -/
def overrunState : State := { State.reset with fr := ⟨.frame, .valid, true, true, false, 0#9⟩ }
def truncatedState : State := { State.reset with fr := ⟨.pending, .lengthError, false, false, true, 2#9⟩ }

-- Row FC1.
theorem test_fack : overrunState.fr.image = 0x00000302#32 ∧
    see (fun t => t.fr.image) (exec .fack overrunState) = some 0x00000002#32 := by decide
-- Row FC4.
theorem test_fclear : truncatedState.fr.image = 0x00020421#32 ∧
    see (fun t => t.fr.image) (exec .fclear truncatedState) = some 0x00000420#32 := by decide

-- Rows B1, B2, B3, and R99 for the other reserved opcodes.
theorem test_reserved_status :
    [exec .rsvd0 State.reset, exec .rsvd7 State.reset, exec .rsvd8 State.reset, exec .rsvd9 State.reset,
      exec .rsvdA State.reset, exec .rsvdB State.reset, exec .rsvdC State.reset, exec .rsvdD State.reset,
      exec .rsvdE State.reset, exec .rsvdF State.reset].map (see (fun t => t.status.image)) =
    [some 0x00000104#32, some 0x00007104#32, some 0x00008104#32, some 0x00009104#32, some 0x0000A104#32,
      some 0x0000B104#32, some 0x0000C104#32, some 0x0000D104#32, some 0x0000E104#32, some 0x0000F104#32] := by decide

/-- What the host gets back from one access. -/
def answer (e : Event) (s : State) : Option (Option BusResponse) := see (fun t => t.response) (step { s with inputs := [e] })

-- Rows B4, B5, B7, B11, B12.
theorem test_bus_answers :
    answer (.hostRead 32 (.offset 0x0018#14)) State.reset = some (some (.readData 0x0102007E#32)) ∧
    answer (.hostRead 32 (.offset 0x0000#14)) overrunState = some (some (.readData 0#32)) ∧
    answer (.hostRead 32 (.offset 0x0020#14)) overrunState = some (some (.readData 0#32)) ∧
    answer (.hostWrite 32 (.offset 0x1001#14) 0#32) State.reset = some (some (.busError 0x1001#14)) ∧
    answer (.hostRead 16 (.offset 0x0004#14)) State.reset = some (some (.busError 0x0004#14)) := by decide
-- Rows B8, B9: the word's low byte is stored, and an index beyond the capacity is not.
theorem test_ibuf_window :
    see (fun t => t.ibuf) (step { State.reset with inputs := [.hostWrite 32 (.offset 0x1000#14) 0x12345678#32] }) =
        some [(0, 0x78#8)] ∧
      see (fun t => t.ibuf) (step { State.reset with inputs := [.hostWrite 32 (.offset 0x1408#14) 0x12345678#32] }) =
        some [] := by decide
theorem test_fetch_word_runs_first :
    see (fun t => t.status.image) (step (State.reset.withFetchWord 32 0x00000007)) = some 0x00007104#32 := by decide

/-! ### Witnesses: concrete inputs that meet every hypothesis of a statement together -/

theorem witness_DecodeOfEncodedCommand :
    (Instr.encode 0x7E#8 511 true true).wellFormed = true ∧ (Instr.checksum 0 false true).wellFormed = true := by decide

theorem witness_IgnoredBitsDoNotChangeTheCommand :
    ∃ r ∈ opcodeTable, r.hits 0xF00302F3#32 = true ∧ 0xF00302F3#32 &&& r.used ≠ 0xF00302F3#32 :=
  ⟨⟨"ENCODE", 0x3#32, 0xF#32, 0x07FFFF0F#32⟩, by decide, by decide, by decide⟩

theorem witness_EveryWordHitsItsOneTableRow :
    (⟨"FACK", 0x6#32, 0xF#32, 0x0000000F#32⟩ : OpcodeRow) ∈ opcodeTable := by decide

theorem witness_CommandWordDecodesByItsFields :
    [0x0BFF0001#32, 0x03FF0002#32, 0x07FFFF03#32, 0x0000FF04#32, 0x5#32, 0x6#32].map (fun w : Word => w.extractLsb' 0 4) =
      [0x1#4, 0x2#4, 0x3#4, 0x4#4, 0x5#4, 0x6#4] ∧
    (0xFFFFFFF0#32 : Word).extractLsb' 0 4 = 0x0#4 ∧ 0x7#4 ≤ (0x7#32 : Word).extractLsb' 0 4 ∧
    0x7#4 ≤ (0xF#32 : Word).extractLsb' 0 4 := by decide

theorem witness_CommandWriteStepRunsItsCommand : decode 0x06010003#32 = .encode 0x00#8 1 true true := by decide

theorem witness_CommandResultsAreReadableInTheNextStep :
    (0x0004#14 : Offset).extractLsb' 0 2 = 0#2 ∧ (0x3FFC#14 : Offset).extractLsb' 0 2 = 0#2 := by decide

theorem witness_ParamIsAConstantImage :
    (Params.mk 0x00#8 6 true).legal ∧ (Params.mk 0xFF#8 511 false).legal ∧ Config.hw.legal := by decide

theorem witness_ReservedOffsetsReadZero :
    ∀ off ∈ [0x001C#14, 0x0FFC#14], (off : Offset).extractLsb' 0 2 = 0#2 ∧ 0x001C ≤ off.toNat ∧ off.toNat ≤ 0x0FFC := by
  simp

theorem witness_BufferWindowsReadOneByteAWord :
    (0 : Nat) < 1024 ∧ 257 < 1024 ∧ 258 < 1024 ∧ 1023 < 1024 ∧ 257 < Config.hw.maxFrameLen ∧
      ¬ 258 < Config.hw.maxFrameLen ∧
      ∀ s : State, (0x3000, s.rxp) ∈ [(0x1000, s.ibuf), (0x2000, s.obuf), (0x3000, s.rxp)] := by
  refine ⟨by omega, by omega, by omega, by omega, by decide, by decide, fun s => ?_⟩
  simp

theorem witness_HostWritesChangeOnlyIbuf :
    ∀ off ∈ [0x0004#14, 0x0FFC#14, 0x1000#14, 0x1404#14, 0x1408#14, 0x1FFC#14, 0x2000#14, 0x3FFC#14],
      (off : Offset).extractLsb' 0 2 = 0#2 ∧ off ≠ 0#14 := by simp

theorem witness_IllegalAccessesChangeNothing :
    ((16 : Nat) ≠ 32 ∨ (0x0000#14 : Offset).extractLsb' 0 2 ≠ 0#2) ∧
    ((32 : Nat) ≠ 32 ∨ (0x0001#14 : Offset).extractLsb' 0 2 ≠ 0#2) ∧
    ((32 : Nat) ≠ 32 ∨ (0x3FFF#14 : Offset).extractLsb' 0 2 ≠ 0#2) := by decide

theorem witness_TheWindowIsSixteenKibAtBase :
    (∃ off : Offset, Config.pBase + 0x3FFF = Config.pBase + off.toNat) ∧
    (Config.pBase + 0x4000 < Config.pBase ∨ Config.pBase + 0x4000 ≤ Config.pBase + 0x4000) :=
  ⟨⟨0x3FFF#14, rfl⟩, .inr (Nat.le_refl _)⟩

theorem witness_HostReadsHaveNoSideEffect :
    see (fun t => t.draws) (step { State.reset with inputs := [.hostRead 32 (.offset 0x0004#14)] }) =
      some State.reset.draws := by decide

theorem witness_SlicesReadWrittenBytesAndFreshDraws :
    (2 : Nat) < 3 ∧ Memory.read? [(1, 0x55#8)] (0 + 1) = some 0x55#8 ∧ Memory.read? [(1, 0x55#8)] (0 + 2) = none := by
  decide

theorem witness_ChecksumComputesTheCrc : (loaded [0x00#8, 0x01#8, 0x02#8]).ibuf.holds 0 [0x00#8, 0x01#8, 0x02#8] :=
  Memory.holds_writeBytes _ _ _

theorem witness_ChainedChecksumsEqualOneChecksum :
    [0x00#8].length ≤ Config.hw.maxFrameLen ∧ [0x01#8].length ≤ Config.hw.maxFrameLen ∧
    (loaded [0x00#8]).ibuf.holds 0 [0x00#8] ∧ ({ loaded [0x01#8] with crcVal := 0xE1F0#16 }).ibuf.holds 0 [0x01#8] ∧
    see (fun t => t.crcVal) (exec (.checksum 1 false false) (loaded [0x00#8])) = some 0xE1F0#16 := by
  decide +kernel

theorem witness_CrcDetectsEveryTwoByteChange :
    [0x00#8, 0x00#8].length = [0x00#8, 0x01#8].length ∧ [0x00#8, 0x00#8].length ≤ 2 ∧
    [0x00#8, 0x00#8] ≠ [0x00#8, 0x01#8] := by decide

-- One buffer of three bytes after the header for each clause: 0 payload bytes fit, 1 does not.
theorem witness_ValidatorChecksInOrder :
    (List.replicate 5 0x7E#8).length < 6 ∧ 3 ≤ [0xFF#8, 0xFF#8, 0x7E#8].length ∧ (0x00#8 : Byte) ≠ Config.hw.marker ∧
    (0x7E#8 : Byte) = Config.hw.marker ∧ (0x02#8 : Byte) ≠ Config.hw.marker ∧
    [0xFF#8, 0xFF#8, 0x7E#8].length < (0x01#8 : Byte).toNat + 3 ∧
    ¬ [0xFF#8, 0xFF#8, 0x7E#8].length < (0x00#8 : Byte).toNat + 3 ∧
    ([] : List Byte).length = (0x00#8 : Byte).toNat ∧
    [0xFF#8, 0xFF#8, 0x7E#8] = ([] : List Byte) ++ 0xFF#8 :: 0xFF#8 :: 0x7E#8 :: [] := by decide

theorem witness_ValidateClassifiesTheBuffer :
    (loaded [0x7E#8, 0x01#8, 0x01#8, 0x01#8, 0x00#8, 0x00#8, 0x7E#8]).ibuf.holds 0
      [0x7E#8, 0x01#8, 0x01#8, 0x01#8, 0x00#8, 0x00#8, 0x7E#8] := Memory.holds_writeBytes _ _ _

theorem witness_DeclaredLengthsAbove252NeverValidate :
    let s : List Byte := [0x7E#8, 0x02#8, 0xFD#8] ++ List.replicate 255 0x00#8
    s.length ≤ Config.hw.maxFrameLen ∧ 253 ≤ declaredLen s ∧ 6 ≤ s.length ∧ byteAt s 0 = Config.hw.marker ∧
      byteAt s 1 ≠ Config.hw.marker ∧ (252 : Nat) < 253 := by decide +kernel

theorem witness_CorruptedPayloadGivesCrcError :
    (0x01#8 : Byte) ≠ Config.hw.marker ∧ ([0x00#8] ++ [0x01#8, 0x02#8] ++ ([] : List Byte)).length ≤ 255 ∧
    [0x01#8, 0x02#8].length = [0x01#8, 0x03#8].length ∧ [0x01#8, 0x02#8].length ≤ 2 ∧
    [0x01#8, 0x02#8] ≠ [0x01#8, 0x03#8] ∧ Config.hw.marker ∉ [0x00#8] ++ [0x01#8, 0x03#8] ++ ([] : List Byte) := by
  decide

theorem witness_EncodeWritesTheFrame : (252 : Nat) ≤ Config.hw.maxPayloadLen ∧ ¬ 253 ≤ Config.hw.maxPayloadLen := by
  decide

/-- The state after row E2 with its frame copied into IBUF, and the one after row E8. -/
def copied (bs : List Byte) : State := { loaded bs with obuf := Memory.writeBytes [] 0 bs }

theorem witness_EncodedFramesValidate :
    Framable Config.hw 0x02#8 [0x00#8, 0x01#8, 0x02#8] ∧
    (loaded [0x00#8, 0x01#8, 0x02#8]).ibuf.holds 0 [0x00#8, 0x01#8, 0x02#8] ∧
    see (fun t => t.obuf) (exec (.encode 0x02#8 3 false false) (loaded [0x00#8, 0x01#8, 0x02#8])) =
      some (copied [0x7E#8, 0x02#8, 0x03#8, 0x00#8, 0x01#8, 0x02#8, 0xDF#8, 0xEF#8, 0x7E#8]).ibuf ∧
    Config.hw.marker ∈ [0x7E#8] ∧ [0x7E#8].length ≤ Config.hw.maxPayloadLen ∧ (loaded [0x7E#8]).ibuf.holds 0 [0x7E#8] ∧
    see (fun t => t.obuf) (exec (.encode 0x01#8 1 false false) (loaded [0x7E#8])) =
      some (copied [0x7E#8, 0x01#8, 0x01#8, 0x7E#8, 0x7E#8, 0xA9#8, 0x7E#8]).ibuf ∧
    Config.hw.maxPayloadLen < 253 :=
  ⟨⟨by decide, by decide, by decide⟩, Memory.holds_writeBytes _ _ _, by decide +kernel, by decide, by decide,
    Memory.holds_writeBytes _ _ _, by decide +kernel, by decide⟩

theorem witness_EncodedMarkersAreRejectedByTheValidator :
    [0x7E#8].length ≤ 255 ∧ (0x7E#8 : Byte) = Config.hw.marker ∧ (0x01#8 : Byte) ≠ Config.hw.marker ∧
    Config.hw.marker ∈ [0x7E#8] := by decide

theorem witness_ReservedOpcodesReportUnknownError : Instr.rsvd0 ∈ reservedCommands ∧ Instr.rsvdF ∈ reservedCommands := by
  decide

-- A marker byte at new length 5, and another byte at new length 6 and at the capacity.
theorem witness_FpushAccumulatesOrOverflows :
    ¬ ((0x7E#8 : Byte) = Config.hw.marker ∧ (accumulating (List.replicate 4 0#8)).fr.flen.toNat + 1 ≥ 6) ∧
    ¬ ((0x00#8 : Byte) = Config.hw.marker ∧ (accumulating (List.replicate 5 0#8)).fr.flen.toNat + 1 ≥ 6) ∧
    ¬ ((0x00#8 : Byte) = Config.hw.marker ∧ (accumulating (List.replicate 257 0#8)).fr.flen.toNat + 1 ≥ 6) ∧
    (accumulating (List.replicate 257 0#8)).fr.flen.toNat + 1 = Config.hw.maxFrameLen := by decide +kernel

/-- The empty frame of row F1 without its end marker. -/
def emptyFrameHead : List Byte := [0x7E#8, 0x02#8, 0x00#8, 0xFF#8, 0xFF#8]

theorem witness_FpushTriggerValidatesTheAccumulation :
    emptyFrameHead.length = (accumulating emptyFrameHead).fr.flen.toNat ∧ 5 ≤ emptyFrameHead.length ∧
    (accumulating emptyFrameHead).fbuf.holds 0 emptyFrameHead ∧
    (validate Config.hw (emptyFrameHead ++ [Config.hw.marker])).outcome = .valid := by decide +kernel

theorem witness_FackClearsTheStickyFlags : overrunState.fr.image = 0x00000302#32 := by decide

theorem witness_FclearDiscardsTheAccumulation :
    (accumulating [0x55#8, 0x55#8, 0x55#8]).fr.image = 0x00030001#32 := by decide

theorem witness_SynchroniserCommandsLeaveTheCommandUnit :
    commandUnit (.fpush 0x7E#8) = false ∧ commandUnit .fclear = false ∧ commandUnit .fack = false := by decide

theorem witness_GarbageBeforeAFrameIsNotSkipped :
    5 ≤ (accumulating (0x55#8 :: emptyFrameHead)).fr.flen.toNat ∧
    (accumulating (0x55#8 :: emptyFrameHead)).fbuf.read? 0 = some 0x55#8 ∧ (0x55#8 : Byte) ≠ Config.hw.marker := by
  decide

/-- The accumulating state of the empty frame meets the frame synchroniser's invariant. -/
theorem witness_TriggersValidateExactlyOneFrame :
    SynchroniserInv Config.hw (accumulating emptyFrameHead) ∧
    emptyFrameHead.length = (accumulating emptyFrameHead).fr.flen.toNat ∧ 5 ≤ emptyFrameHead.length ∧
    (accumulating emptyFrameHead).fbuf.holds 0 emptyFrameHead := by
  have hn : (accumulating emptyFrameHead).fr.flen.toNat = 5 := by decide
  refine ⟨⟨by decide, by decide, ?_, by decide, by decide, by decide, by decide, by decide, ⟨[], by decide⟩, by decide⟩,
    by decide, by decide, by decide⟩
  intro i hi hlt
  omega

theorem witness_StreamDeliversFramesWithoutCrcTriggers :
    Config.hw.legal ∧ Framable Config.hw 0x05#8 [0xF7#8] ∧ Framable Config.hw 0x05#8 [0x4A#8] ∧
    Framable Config.hw 0x05#8 [0x01#8, 0x05#8] ∧ State.reset.fr.flen = 0#9 ∧ ¬ crcTriggers Config.hw [] ∧
    ¬ crcTriggers Config.hw [0xF7#8] ∧ crcTriggers Config.hw [0x4A#8] ∧ crcTriggers Config.hw [0x01#8, 0x05#8] := by
  refine ⟨by decide, ⟨by decide, by decide, by decide⟩, ⟨by decide, by decide, by decide⟩,
    ⟨by decide, by decide, by decide⟩, rfl, ?_, ?_, ?_, ?_⟩ <;> unfold crcTriggers <;> decide +kernel

theorem witness_BackToBackFramesStayAligned :
    ∀ f ∈ [((0x01#8 : Byte), [(0x11#8 : Byte)])] ++ [(0x02#8, [0x22#8, 0x33#8])],
      Framable Config.hw f.1 f.2 ∧ ¬ crcTriggers Config.hw f.2 := by
  intro f hf
  simp only [List.cons_append, List.nil_append, List.mem_cons, List.not_mem_nil, or_false] at hf
  rcases hf with rfl | rfl <;> exact ⟨⟨by decide, by decide, by decide⟩, by unfold crcTriggers; decide +kernel⟩

theorem witness_UnknownErrorMeansACallerError :
    commandUnit (.encode 0x00#8 1 true true) = true ∧ commandUnit (.checksum 258 false true) = true ∧
    commandUnit (.validate 259 false) = true ∧ commandUnit .rsvd0 = true := by decide

theorem witness_FailuresChangeOnlyTheReports :
    commandUnit (.validate 6 true) = true ∧
    see (fun t => decide (t.status.outcome ≠ .valid)) (exec (.validate 6 true) State.reset) = some true ∧
    see (fun t => decide (t.status.outcome ≠ .valid)) (exec .rsvd7 State.reset) = some true ∧
    see (fun t => t.fr.result) (exec (.fpush 0x7E#8) (accumulating [0x7E#8, 0x05#8, 0x01#8, 0x4A#8, 0x08#8])) =
      some .error := by decide +kernel

theorem witness_OnlyTheNamedStepsWriteARegister :
    ({ State.reset with inputs := [.portByte 0x7E#8] } : State).inputs = .portByte 0x7E#8 :: [] ∧
    step { State.reset with inputs := [.portByte 0x7E#8] } = .next (push Config.hw 0x7E#8 State.reset) ∧
    Event.portByte 0x7E#8 ≠ .reset ∧ (push Config.hw 0x7E#8 State.reset).fr ≠ State.reset.fr :=
  ⟨rfl, rfl, by decide, by decide⟩

-- Two synchronisers that agree while the counts of draws differ, and two that accumulate the same written bytes.
theorem witness_UnitsDoNotInterfere :
    SameCommandUnit overrunState truncatedState ∧ commandUnit (.validate 6 false) = true ∧
    SameSynchroniser (accumulating emptyFrameHead) { accumulating emptyFrameHead with draws := 5, crcVal := 0#16 } ∧
    (accumulating emptyFrameHead).fbuf.covers (accumulating emptyFrameHead).fr.flen.toNat ∧
    SameSynchroniser State.reset (loaded [0x55#8]) ∧ State.reset.draws = (loaded [0x55#8]).draws ∧
    commandUnit (.fpush 0x7E#8) = false :=
  ⟨⟨rfl, rfl, rfl, rfl, rfl, rfl⟩, rfl, ⟨rfl, rfl, rfl, rfl⟩, by decide, ⟨rfl, rfl, rfl, rfl⟩, rfl, rfl⟩

-- With no byte of IBUF written, and a trigger about to come.
theorem witness_SendingAndReceivingCommute :
    commandUnit (.checksum 258 false false) = true ∧ commandUnit .rsvd0 = true ∧ commandUnit (.fpush 0x7E#8) = false ∧
    (accumulating emptyFrameHead).fbuf.covers (accumulating emptyFrameHead).fr.flen.toNat ∧
    (accumulating emptyFrameHead).ibuf = [] := by decide

theorem witness_StepsKeepTheBuffersInv :
    BuffersInv Config.hw { State.reset with inputs := [.portByte 0x7E#8] } ∧
    step { State.reset with inputs := [.portByte 0x7E#8] } = .next (push Config.hw 0x7E#8 State.reset) :=
  ⟨by constructor <;> decide, rfl⟩

theorem witness_StepsKeepTheStatusInv :
    StatusInv (State.reset.withFetchWord 32 0x00000007) ∧
    step (State.reset.withFetchWord 32 0x00000007) =
      .next { State.reset with
        status := ⟨.unknownError, .start, false, true, 0x7#4⟩
        response := some .writeDone } :=
  ⟨.inl rfl, rfl⟩

theorem witness_StepsKeepTheSynchroniserInv :
    SynchroniserInv Config.hw { accumulating emptyFrameHead with inputs := [.portByte 0x7E#8] } ∧
    see (fun t => t.fr.image) (step { accumulating emptyFrameHead with inputs := [.portByte 0x7E#8] }) =
      some 0x00000102#32 := by
  obtain ⟨h1, h2, h3, h4, h5, h6, h7, h8, h9, h10⟩ := witness_TriggersValidateExactlyOneFrame.1
  exact ⟨⟨h1, h2, h3, h4, h5, h6, h7, h8, h9, h10⟩, by decide +kernel⟩

theorem witness_StepsKeepAFrameInObuf :
    ObufInv Config.hw ({ loaded [0x00#8, 0x01#8, 0x02#8] with
      inputs := [.hostWrite 32 (.offset 0#14) 0x00030203#32] }) ∧
    see (fun t => (t.obufLen, t.obuf.read? 6)) (step { loaded [0x00#8, 0x01#8, 0x02#8] with
      inputs := [.hostWrite 32 (.offset 0#14) 0x00030203#32] }) = some (9#9, some 0xDF#8) :=
  ⟨.inl rfl, by decide +kernel⟩

end Sys2Proof.Tests
end

section
/-! PROOFS. What one command does to each register and buffer (spec/10_state.md R23 to R29): one lemma per part of the
state, for the invariants and the frame statements to cite. -/

namespace Sys2Proof.Machine

open Sys2Proof.Safety

variable {i : Instr} {s t : State}

theorem Memory.covers_zero (m : Memory) : m.covers 0 := fun j hj => absurd hj (Nat.not_lt_zero j)

theorem Memory.holds_nil (m : Memory) (i : Nat) : m.holds i [] := fun j hj => absurd hj (Nat.not_lt_zero j)

/-- Everything a command can do: one of the six commands with a meaning, or the report of a reserved opcode. -/
theorem exec_cases (h : exec i s = .next t) :
    (∃ len pabs chain, i = .checksum len pabs chain ∧ t = checksumCommand Config.hw len pabs chain s) ∨
    (∃ len pabs, i = .validate len pabs ∧ t = validateCommand Config.hw len pabs s) ∨
    (∃ ident len pabs dabs, i = .encode ident len pabs dabs ∧ t = encodeCommand Config.hw ident len pabs dabs s) ∨
    (∃ b, i = .fpush b ∧ t = push Config.hw b s) ∨
    (i = .fclear ∧ t = { s with fr := s.fr.cleared }) ∨
    (i = .fack ∧ t = { s with fr := s.fr.acknowledged }) ∨
    (i ∈ reservedCommands ∧ t = s.report i.opc .unknownError) := by
  cases i with
  | checksum len pabs chain => cases h; exact .inl ⟨_, _, _, rfl, rfl⟩
  | validate len pabs => cases h; exact .inr (.inl ⟨_, _, rfl, rfl⟩)
  | encode ident len pabs dabs => cases h; exact .inr (.inr (.inl ⟨_, _, _, _, rfl, rfl⟩))
  | fpush b => cases h; exact .inr (.inr (.inr (.inl ⟨_, rfl, rfl⟩)))
  | fclear => cases h; exact .inr (.inr (.inr (.inr (.inl ⟨rfl, rfl⟩))))
  | fack => cases h; exact .inr (.inr (.inr (.inr (.inr (.inl ⟨rfl, rfl⟩)))))
  | _ => cases h; exact .inr (.inr (.inr (.inr (.inr (.inr ⟨by simp [reservedCommands], rfl⟩)))))

/-- Everything CHECKSUM can do (R113): return the initial value, refuse its length, or continue the CRC over its input. -/
theorem checksumCommand_cases (P : Params) (len : Nat) (pabs chain : Bool) (s : State) :
    (pabs = true ∧ checksumCommand P len pabs chain s =
      { s with crcVal := checksumInit chain s, status := reportOf 0x1#4 .valid }) ∨
    (checksumRefusesArgs P len pabs = true ∧ checksumCommand P len pabs chain s = s.report 0x1#4 .unknownError) ∨
    (pabs = false ∧ checksumRefusesArgs P len pabs = false ∧ checksumCommand P len pabs chain s =
      { s with
        crcVal := crc16 (checksumInit chain s) (inputSlice len s).1
        draws := (inputSlice len s).2
        status := reportOf 0x1#4 .valid }) := by
  unfold checksumCommand checksumRefusesArgs
  cases pabs with
  | true => exact .inl ⟨rfl, rfl⟩
  | false =>
    by_cases h : len > P.maxFrameLen
    · exact .inr (.inl ⟨by simp [h], by simp [h]⟩)
    · exact .inr (.inr ⟨rfl, by simp [h], by simp [h]⟩)

/-- Everything VALIDATE can do (R140): refuse its arguments, or report the validator's verdict on its input. -/
theorem validateCommand_cases (P : Params) (len : Nat) (pabs : Bool) (s : State) :
    (validateRefusesArgs P len pabs = true ∧ validateCommand P len pabs s = s.report 0x2#4 .unknownError) ∨
    (validateRefusesArgs P len pabs = false ∧ validateCommand P len pabs s =
      { s with
        crcVal := (validate P (inputSlice len s).1).crc.getD s.crcVal
        draws := (inputSlice len s).2
        status := reportOfValidate (validate P (inputSlice len s).1) }) := by
  unfold validateCommand
  cases h : validateRefusesArgs P len pabs with
  | true => exact .inl ⟨rfl, rfl⟩
  | false => exact .inr ⟨rfl, rfl⟩

/-- Everything ENCODE can do (R161): refuse its arguments, or write the frame of its payload. -/
theorem encodeCommand_cases (P : Params) (ident : Byte) (len : Nat) (pabs dabs : Bool) (s : State) :
    (encodeRefusesArgs P len pabs dabs = true ∧
      encodeCommand P ident len pabs dabs s = s.report 0x3#4 .unknownError) ∨
    (encodeRefusesArgs P len pabs dabs = false ∧ encodeCommand P ident len pabs dabs s =
      { s with
        obuf := encodeInto P s.obuf ident (inputSlice len s).1
        obufLen := BitVec.ofNat 9 (frameLen len)
        crcVal := crc16 crcInit (inputSlice len s).1
        draws := (inputSlice len s).2
        status := reportOf 0x3#4 .valid }) := by
  unfold encodeCommand
  cases h : encodeRefusesArgs P len pabs dabs with
  | true => exact .inl ⟨rfl, rfl⟩
  | false => exact .inr ⟨rfl, rfl⟩

/-- The payload of an accepted ENCODE is within the payload bound (R161). -/
theorem le_maxPayloadLen_of_encode {P : Params} {len : Nat} {pabs dabs : Bool}
    (h : encodeRefusesArgs P len pabs dabs = false) : len ≤ P.maxPayloadLen := by
  simp only [encodeRefusesArgs, Bool.or_eq_false_iff, decide_eq_false_iff_not] at h
  exact Nat.not_lt.mp h.2

/-! ### Where a command writes -/

/-- No command writes IBUF: only the host does (R29). -/
theorem exec_ibuf (h : exec i s = .next t) : t.ibuf = s.ibuf := by
  rcases exec_cases h with ⟨len, pabs, chain, -, rfl⟩ | ⟨len, pabs, -, rfl⟩ | ⟨ident, len, pabs, dabs, -, rfl⟩ |
    ⟨b, -, rfl⟩ | ⟨-, rfl⟩ | ⟨-, rfl⟩ | ⟨-, rfl⟩
  · rcases checksumCommand_cases Config.hw len pabs chain s with ⟨-, h⟩ | ⟨-, h⟩ | ⟨-, -, h⟩ <;> simp [h]
  · rcases validateCommand_cases Config.hw len pabs s with ⟨-, h⟩ | ⟨-, h⟩ <;> simp [h]
  · rcases encodeCommand_cases Config.hw ident len pabs dabs s with ⟨-, h⟩ | ⟨-, h⟩ <;> simp [h]
  · obtain ⟨-, -, -, hibuf, -⟩ := push_frame Config.hw b s
    exact hibuf
  · rfl
  · rfl
  · rfl

/-- What a command leaves in OBUF and OBUF_LEN: what they held, or the frame of an accepted ENCODE (R25, R161). -/
theorem exec_obuf (h : exec i s = .next t) :
    (t.obuf = s.obuf ∧ t.obufLen = s.obufLen) ∨
    ∃ ident len pabs dabs, i = .encode ident len pabs dabs ∧ len ≤ Config.hw.maxPayloadLen ∧
      t.obuf = encodeInto Config.hw s.obuf ident (inputSlice len s).1 ∧ t.obufLen = BitVec.ofNat 9 (frameLen len) := by
  rcases exec_cases h with ⟨len, pabs, chain, -, rfl⟩ | ⟨len, pabs, -, rfl⟩ | ⟨ident, len, pabs, dabs, hi, rfl⟩ |
    ⟨b, -, rfl⟩ | ⟨-, rfl⟩ | ⟨-, rfl⟩ | ⟨-, rfl⟩
  · left
    rcases checksumCommand_cases Config.hw len pabs chain s with ⟨-, h⟩ | ⟨-, h⟩ | ⟨-, -, h⟩ <;>
      (rw [h]; exact ⟨rfl, rfl⟩)
  · left
    rcases validateCommand_cases Config.hw len pabs s with ⟨-, h⟩ | ⟨-, h⟩ <;> (rw [h]; exact ⟨rfl, rfl⟩)
  · rcases encodeCommand_cases Config.hw ident len pabs dabs s with ⟨-, h⟩ | ⟨ha, h⟩ <;> rw [h]
    · exact .inl ⟨rfl, rfl⟩
    · exact .inr ⟨ident, len, pabs, dabs, hi, le_maxPayloadLen_of_encode ha, rfl, rfl⟩
  · obtain ⟨-, -, hlen, -, hobuf, -⟩ := push_frame Config.hw b s
    exact .inl ⟨hobuf, hlen⟩
  · exact .inl ⟨rfl, rfl⟩
  · exact .inl ⟨rfl, rfl⟩
  · exact .inl ⟨rfl, rfl⟩

/-- CRC is written by CHECKSUM, VALIDATE and ENCODE only (R24). -/
theorem exec_crcVal (h : exec i s = .next t) :
    t.crcVal = s.crcVal ∨ (∃ len pabs chain, i = .checksum len pabs chain) ∨ (∃ len pabs, i = .validate len pabs) ∨
      ∃ ident len pabs dabs, i = .encode ident len pabs dabs := by
  rcases exec_cases h with ⟨len, pabs, chain, hi, -⟩ | ⟨len, pabs, hi, -⟩ | ⟨ident, len, pabs, dabs, hi, -⟩ |
    ⟨b, -, rfl⟩ | ⟨-, rfl⟩ | ⟨-, rfl⟩ | ⟨-, rfl⟩
  · exact .inr (.inl ⟨len, pabs, chain, hi⟩)
  · exact .inr (.inr (.inl ⟨len, pabs, hi⟩))
  · exact .inr (.inr (.inr ⟨ident, len, pabs, dabs, hi⟩))
  · obtain ⟨-, hcrc, -⟩ := push_frame Config.hw b s
    exact .inl hcrc
  · exact .inl rfl
  · exact .inl rfl
  · exact .inl rfl

/-- What a command leaves in STATUS: what it held, after a command of the frame synchroniser; a report without a run of
the validator; or the report of VALIDATE's run (R23, R190, R211). -/
theorem exec_status (h : exec i s = .next t) :
    (commandUnit i = false ∧ t.status = s.status) ∨
    (commandUnit i = true ∧ ∃ o ∈ outcomesWithoutRun i.opc, t.status = reportOf i.opc o) ∨
    (∃ len pabs, i = .validate len pabs ∧ t.status = reportOfValidate (validate Config.hw (inputSlice len s).1)) := by
  rcases exec_cases h with ⟨len, pabs, chain, rfl, rfl⟩ | ⟨len, pabs, rfl, rfl⟩ | ⟨ident, len, pabs, dabs, rfl, rfl⟩ |
    ⟨b, rfl, rfl⟩ | ⟨rfl, rfl⟩ | ⟨rfl, rfl⟩ | ⟨hi, rfl⟩
  · rcases checksumCommand_cases Config.hw len pabs chain s with ⟨-, h⟩ | ⟨-, h⟩ | ⟨-, -, h⟩ <;> rw [h]
    · exact .inr (.inl ⟨rfl, .valid, by simp [outcomesWithoutRun, Instr.opc], rfl⟩)
    · exact .inr (.inl ⟨rfl, .unknownError, by simp [outcomesWithoutRun, Instr.opc], rfl⟩)
    · exact .inr (.inl ⟨rfl, .valid, by simp [outcomesWithoutRun, Instr.opc], rfl⟩)
  · rcases validateCommand_cases Config.hw len pabs s with ⟨-, h⟩ | ⟨-, h⟩ <;> rw [h]
    · exact .inr (.inl ⟨rfl, .unknownError, by simp [outcomesWithoutRun, Instr.opc], rfl⟩)
    · exact .inr (.inr ⟨len, pabs, rfl, rfl⟩)
  · rcases encodeCommand_cases Config.hw ident len pabs dabs s with ⟨-, h⟩ | ⟨-, h⟩ <;> rw [h]
    · exact .inr (.inl ⟨rfl, .unknownError, by simp [outcomesWithoutRun, Instr.opc], rfl⟩)
    · exact .inr (.inl ⟨rfl, .valid, by simp [outcomesWithoutRun, Instr.opc], rfl⟩)
  · obtain ⟨hstatus, -⟩ := push_frame Config.hw b s
    exact .inl ⟨rfl, hstatus⟩
  · exact .inl ⟨rfl, rfl⟩
  · exact .inl ⟨rfl, rfl⟩
  · have hr : ∀ j ∈ reservedCommands, commandUnit j = true ∧ .unknownError ∈ outcomesWithoutRun j.opc := by decide
    exact .inr (.inl ⟨(hr i hi).1, .unknownError, (hr i hi).2, rfl⟩)

/-- What a command can do to the frame synchroniser: push a byte, clear or acknowledge, or leave it as it is (R26, R187 to
R190, R222). -/
theorem exec_synchroniser (h : exec i s = .next t) :
    (∃ b, i = .fpush b ∧ t = push Config.hw b s) ∨
    (i = .fclear ∧ t = { s with fr := s.fr.cleared }) ∨
    (i = .fack ∧ t = { s with fr := s.fr.acknowledged }) ∨
    (commandUnit i = true ∧ SameSynchroniser s t) := by
  rcases exec_cases h with ⟨len, pabs, chain, rfl, rfl⟩ | ⟨len, pabs, rfl, rfl⟩ | ⟨ident, len, pabs, dabs, rfl, rfl⟩ |
    hpush | hclear | hack | ⟨hi, rfl⟩
  · refine .inr (.inr (.inr ⟨rfl, ?_⟩))
    rcases checksumCommand_cases Config.hw len pabs chain s with ⟨-, h⟩ | ⟨-, h⟩ | ⟨-, -, h⟩ <;>
      (rw [h]; exact ⟨rfl, rfl, rfl, rfl⟩)
  · refine .inr (.inr (.inr ⟨rfl, ?_⟩))
    rcases validateCommand_cases Config.hw len pabs s with ⟨-, h⟩ | ⟨-, h⟩ <;> (rw [h]; exact ⟨rfl, rfl, rfl, rfl⟩)
  · refine .inr (.inr (.inr ⟨rfl, ?_⟩))
    rcases encodeCommand_cases Config.hw ident len pabs dabs s with ⟨-, h⟩ | ⟨-, h⟩ <;>
      (rw [h]; exact ⟨rfl, rfl, rfl, rfl⟩)
  · exact .inl hpush
  · exact .inr (.inl hclear)
  · exact .inr (.inr (.inl hack))
  · have hr : ∀ j ∈ reservedCommands, commandUnit j = true := by decide
    exact .inr (.inr (.inr ⟨hr i hi, rfl, rfl, rfl, rfl⟩))

/-- RXP and RXP_INFO change only where the pushed byte is a marker, since only a marker triggers (R183, R184). -/
theorem push_rxp_of_ne_marker {P : Params} {b : Byte} (hb : b ≠ P.marker) (s : State) :
    (push P b s).rxp = s.rxp ∧ (push P b s).rxpInfo = s.rxpInfo := by
  rcases push_cases P b s with ⟨ht, -⟩ | ⟨-, -, h⟩ | ⟨-, -, h⟩
  · exact absurd ((triggers_iff _ _ _).mp ht).1 hb
  · rw [h]; exact ⟨rfl, rfl⟩
  · rw [h]; exact ⟨rfl, rfl⟩

/-! ### What every step keeps -/

/-- An induction over one step, packaged once: a property that reset has, that the model's own fields do not touch, and
that a byte written to IBUF, a pushed byte, FCLEAR, FACK and each command of the command unit keep, is kept by every
step. -/
theorem keeps_of_agents {Inv : State → Prop} (hreset : Inv State.reset)
    (hmodel : ∀ s is r k, Inv s → Inv { s with inputs := is, response := r, draws := k })
    (hibuf : ∀ s i v, i < Config.hw.maxFrameLen → Inv s → Inv { s with ibuf := s.ibuf.write i v })
    (hpush : ∀ s b, Inv s → Inv (push Config.hw b s))
    (hclear : ∀ s, Inv s → Inv { s with fr := s.fr.cleared })
    (hack : ∀ s, Inv s → Inv { s with fr := s.fr.acknowledged })
    (hcommand : ∀ i s t, commandUnit i = true → SameSynchroniser s t → exec i s = .next t → Inv s → Inv t)
    (s t : State) (hs : Inv s) (h : step s = .next t) : Inv t := by
  rcases step_cases h with ⟨-, rfl⟩ | ⟨e, rest, -, ⟨r, k, rfl⟩ | ⟨-, rfl⟩ | ⟨b, -, rfl⟩ | ⟨i, -, hexec⟩ |
    ⟨i, v, -, hi, rfl⟩⟩
  · exact hs
  · exact hmodel s rest r k hs
  · exact hmodel State.reset rest s.response s.draws hreset
  · exact hpush _ b (hmodel s rest s.response s.draws hs)
  · have hs' := hmodel s rest (some .writeDone) s.draws hs
    rcases exec_synchroniser hexec with ⟨b, -, rfl⟩ | ⟨-, rfl⟩ | ⟨-, rfl⟩ | ⟨hu, hsame⟩
    · exact hpush _ b hs'
    · exact hclear _ hs'
    · exact hack _ hs'
    · exact hcommand i _ t hu hsame hexec hs'
  · exact hibuf _ i v hi (hmodel s rest (some .writeDone) s.draws hs)

end Sys2Proof.Machine
end

section
/-! PROOFS. The buffers stay canonical and within their capacity (spec/10_state.md R29, R33). -/

namespace Sys2Proof.Machine

open Sys2Proof.Safety

variable {P : Params} {s t : State}

theorem hw_legal : Config.hw.legal := by decide

theorem maxFrameLen_pos (hP : P.legal) : 0 < P.maxFrameLen := Nat.lt_of_lt_of_le (by decide) hP.1

/-- A length within the capacity fits a 9-bit length register (R10, R11). -/
theorem toNat_len9 {n : Nat} (hP : P.legal) (h : n ≤ P.maxFrameLen) : (BitVec.ofNat 9 n).toNat = n := by
  have hhigh := hP.2
  rw [BitVec.toNat_ofNat]
  omega

/-- The payload window of a buffer is at least a header shorter. -/
theorem length_payloadOf_le (f : List Byte) : (payloadOf f).length ≤ f.length - hdrLen := by
  simp [payloadOf]

/-- Every push keeps FLEN below the capacity: a trigger and an overflow empty the accumulation (R33). -/
theorem push_flen_lt {b : Byte} (hP : P.legal) (h : s.fr.flen.toNat < P.maxFrameLen) :
    (push P b s).fr.flen.toNat < P.maxFrameLen := by
  rcases push_cases P b s with ⟨-, hp⟩ | ⟨-, -, hp⟩ | ⟨-, hn, hp⟩ <;> rw [hp]
  · rcases trigger_cases P (s.fr.flen.toNat + 1) (appended b s) with ⟨-, ht⟩ | ⟨-, ht⟩ <;> rw [ht] <;>
      exact maxFrameLen_pos hP
  · exact maxFrameLen_pos hP
  · rw [accumulated_flen, toNat_len9 hP h]
    omega

/-- What a push leaves in RXP: what it held, or over it the payload of a candidate no longer than the capacity. -/
theorem push_rxp (P : Params) (b : Byte) (s : State) :
    (push P b s).rxp = s.rxp ∨
      ∃ f : List Byte, f.length = s.fr.flen.toNat + 1 ∧ (push P b s).rxp = s.rxp.writeBytes 0 (payloadOf f) := by
  rcases push_cases P b s with ⟨-, hp⟩ | ⟨-, -, hp⟩ | ⟨-, -, hp⟩ <;> rw [hp]
  · rcases trigger_cases P (s.fr.flen.toNat + 1) (appended b s) with ⟨-, ht⟩ | ⟨-, ht⟩ <;> rw [ht]
    · exact .inr ⟨_, length_candidate _ _, rfl⟩
    · exact .inl rfl
  · exact .inl rfl
  · exact .inl rfl

theorem push_keeps_buffersInv (hP : P.legal) (b : Byte) (h : BuffersInv P s) : BuffersInv P (push P b s) := by
  obtain ⟨-, -, -, hibuf, hobuf, -, -, hfbuf⟩ := push_frame P b s
  have hrxp : (push P b s).rxp.wf ∧ (push P b s).rxp.within P.maxFrameLen := by
    rcases push_rxp P b s with hr | ⟨f, hf, hr⟩ <;> rw [hr]
    · exact ⟨h.rxpWf, h.rxpWithin⟩
    · have hlen := length_payloadOf_le f
      have hflen := h.flenBound
      exact ⟨Memory.writeBytes_wf _ _ h.rxpWf, Memory.writeBytes_within _ _ h.rxpWithin (by omega)⟩
  exact {
    ibufWf := hibuf ▸ h.ibufWf
    obufWf := hobuf ▸ h.obufWf
    rxpWf := hrxp.1
    fbufWf := hfbuf ▸ Memory.write_wf _ _ h.fbufWf
    ibufWithin := hibuf ▸ h.ibufWithin
    obufWithin := hobuf ▸ h.obufWithin
    rxpWithin := hrxp.2
    fbufWithin := hfbuf ▸ Memory.write_within h.fbufWithin h.flenBound
    flenBound := push_flen_lt hP h.flenBound }

/-- A command of the command unit writes no buffer but OBUF, and there at most a frame, which fits. -/
theorem command_keeps_buffersInv {i : Instr} (hsame : SameSynchroniser s t) (hexec : exec i s = .next t)
    (h : BuffersInv Config.hw s) : BuffersInv Config.hw t := by
  have hobuf : t.obuf.wf ∧ t.obuf.within Config.hw.maxFrameLen := by
    rcases exec_obuf hexec with ⟨ho, -⟩ | ⟨ident, len, pabs, dabs, -, hlen, ho, -⟩ <;> rw [ho]
    · exact ⟨h.obufWf, h.obufWithin⟩
    · have hfits := maxPayloadLen_fits Config.hw (by decide)
      refine ⟨encodeInto_wf h.obufWf, encodeInto_within h.obufWithin ?_⟩
      rw [length_inputSlice, frameLen_eq]
      omega
  obtain ⟨hfr, -, hrxp, hfbuf⟩ := hsame
  have hibuf := exec_ibuf hexec
  exact {
    ibufWf := hibuf ▸ h.ibufWf
    obufWf := hobuf.1
    rxpWf := hrxp ▸ h.rxpWf
    fbufWf := hfbuf ▸ h.fbufWf
    ibufWithin := hibuf ▸ h.ibufWithin
    obufWithin := hobuf.2
    rxpWithin := hrxp ▸ h.rxpWithin
    fbufWithin := hfbuf ▸ h.fbufWithin
    flenBound := hfr ▸ h.flenBound }

theorem reset_buffersInv : BuffersInv Config.hw State.reset := by
  constructor <;> decide

/-- Settles O53: a pushed byte stays below the capacity, a payload and a frame fit, and nothing else is written. -/
theorem stepsKeepTheBuffersInv : Obligations.StepsKeepTheBuffersInv :=
  keeps_of_agents reset_buffersInv
    (hmodel := fun _ _ _ _ h => { h with })
    (hibuf := fun _ i v hi h =>
      { h with ibufWf := Memory.write_wf i v h.ibufWf, ibufWithin := Memory.write_within h.ibufWithin hi })
    (hpush := fun _ b h => push_keeps_buffersInv hw_legal b h)
    (hclear := fun _ h => { h with flenBound := maxFrameLen_pos hw_legal })
    (hack := fun _ h => { h with })
    (hcommand := fun _ _ _ _ hsame hexec h => command_keeps_buffersInv hsame hexec h)

end Sys2Proof.Machine
end

section
/-! PROOFS. The validator's verdicts (spec/41_validator.md R131, R142). -/

namespace Sys2Proof.Machine

open Sys2Proof.Safety

variable {P : Params} {f : List Byte}

/-- The validator's verdicts with the total length not checked strictly: the pre-check's, without a run, or one of
R142's list. The CRC state's length test cannot fail, since the length state has checked more. -/
theorem validate_verdict (hP : P.strictTotalLength = false) (f : List Byte) :
    ((validate P f).ran = false ∧ (validate P f).outcome = .schemaError ∧ (validate P f).stop = .start) ∨
    ((validate P f).ran = true ∧ ((validate P f).outcome, (validate P f).stop) ∈ reachableVerdicts) := by
  unfold validate
  dsimp only
  split_ifs with hshort hstart hident hlength hpayload hcrcBytes hcrc hend hstrict
  · exact .inl ⟨rfl, rfl, rfl⟩
  · exact .inr ⟨rfl, by simp [reachableVerdicts]⟩
  · exact .inr ⟨rfl, by simp [reachableVerdicts]⟩
  · exact .inr ⟨rfl, by simp [reachableVerdicts]⟩
  · exact .inr ⟨rfl, by simp [reachableVerdicts]⟩
  · simp only [frameLen, crcLen] at hlength hcrcBytes
    omega
  · exact .inr ⟨rfl, by simp [reachableVerdicts]⟩
  · exact .inr ⟨rfl, by simp [reachableVerdicts]⟩
  · rw [hP] at hstrict
    cases hstrict.1
  · exact .inr ⟨rfl, by simp [reachableVerdicts]⟩

/-- The validator never reports UNKNOWN_ERROR (R131). -/
theorem validate_outcome_ne_unknownError (P : Params) (f : List Byte) : (validate P f).outcome ≠ .unknownError := by
  unfold validate
  dsimp only
  split_ifs <;> simp

/-- What the accepted buffer looks like: the header checks passed, and the payload fits and holds no marker (R131). -/
theorem header_of_validate_valid (h : (validate P f).outcome = .valid) :
    byteAt f 1 ≠ P.marker ∧ frameLen (declaredLen f) ≤ f.length ∧ P.marker ∉ payloadOf f := by
  unfold validate at h
  dsimp only at h
  split_ifs at h with hshort hstart hident hlength hpayload
  exact ⟨hident, Nat.not_lt.mp hlength, hpayload⟩

/-- The payload window of a buffer that holds a frame of its declared length has that length. -/
theorem length_payloadOf (h : frameLen (declaredLen f) ≤ f.length) : (payloadOf f).length = declaredLen f := by
  rw [frameLen_eq] at h
  simp only [payloadOf, hdrLen, List.length_take, List.length_drop]
  omega

end Sys2Proof.Machine
end

section
/-! PROOFS. STATUS holds its reset value or a report some command can make (spec/10_state.md R23; spec/60_exceptions.md
R211). -/

namespace Sys2Proof.Machine

open Sys2Proof.Safety

variable {s t : State}

/-- A report without a run of the validator is one of the reports STATUS can hold. -/
theorem statusInv_of_report {op : BitVec 4} {o : ValidationOutcome} (ho : o ∈ outcomesWithoutRun op)
    (h : t.status = reportOf op o) : StatusInv t := by
  refine .inr (.inr ?_)
  rw [h]
  exact ⟨rfl, rfl, rfl, ho⟩

/-- So is the report of VALIDATE, whatever the validator made of its input. -/
theorem statusInv_of_reportOfValidate {f : List Byte} (h : t.status = reportOfValidate (validate Config.hw f)) :
    StatusInv t := by
  rcases validate_verdict (P := Config.hw) rfl f with ⟨hran, houtcome, hstop⟩ | ⟨hran, hverdict⟩
  · refine .inr (.inr ?_)
    rw [h]
    exact ⟨rfl, hran, hstop, by simp [houtcome, outcomesWithoutRun]⟩
  · refine .inr (.inl ?_)
    rw [h]
    exact ⟨rfl, hran, rfl, hverdict⟩

theorem statusInv_congr (hst : t.status = s.status) (h : StatusInv s) : StatusInv t := by
  unfold StatusInv
  rwa [hst]

/-- The frame synchroniser reports nothing in STATUS, and every other command one of the listed reports. -/
theorem exec_keeps_statusInv {i : Instr} (hexec : exec i s = .next t) (h : StatusInv s) : StatusInv t := by
  rcases exec_status hexec with ⟨-, hst⟩ | ⟨-, o, ho, hst⟩ | ⟨len, pabs, -, hst⟩
  · exact statusInv_congr hst h
  · exact statusInv_of_report ho hst
  · exact statusInv_of_reportOfValidate hst

theorem push_keeps_statusInv (P : Params) (b : Byte) (h : StatusInv s) : StatusInv (push P b s) := by
  obtain ⟨hst, -⟩ := push_frame P b s
  exact statusInv_congr hst h

/-- Settles O54: only a command of the command unit writes STATUS, and each of its reports is one of the listed. -/
theorem stepsKeepTheStatusInv : Obligations.StepsKeepTheStatusInv :=
  keeps_of_agents (.inl rfl)
    (hmodel := fun _ _ _ _ h => h)
    (hibuf := fun _ _ _ _ h => h)
    (hpush := fun _ b h => push_keeps_statusInv Config.hw b h)
    (hclear := fun _ h => h)
    (hack := fun _ h => h)
    (hcommand := fun _ _ _ _ _ hexec h => exec_keeps_statusInv hexec h)

end Sys2Proof.Machine
end

section
/-! PROOFS. The frame synchroniser's invariant (spec/43_framer.md R183 to R189, R193). -/

namespace Sys2Proof.Machine

open Sys2Proof.Safety

variable {P : Params} {s t : State} {b : Byte}

/-- The invariant speaks of the frame synchroniser's own registers and buffers only (R222). -/
theorem synchroniserInv_congr (hsame : SameSynchroniser s t) (h : SynchroniserInv P s) : SynchroniserInv P t := by
  obtain ⟨hfr, hinfo, hrxp, hfbuf⟩ := hsame
  exact {
    flenBound := hfr ▸ h.flenBound
    fbufWritten := hfr ▸ hfbuf ▸ h.fbufWritten
    noLateMarker := hfr ▸ hfbuf ▸ h.noLateMarker
    pendingIff := hfr ▸ h.pendingIff
    foutcomeKnown := hfr ▸ h.foutcomeKnown
    frameIsValid := hfr ▸ h.frameIsValid
    errorIsNotValid := hfr ▸ h.errorIsNotValid
    overrunAvail := hfr ▸ h.overrunAvail
    payloadHeld := hinfo ▸ hrxp ▸ h.payloadHeld
    pidNoMarker := hfr ▸ hinfo ▸ h.pidNoMarker }

/-- An ERROR result with an outcome the validator can give empties the accumulation and keeps the invariant (R185,
R186). -/
theorem failed_keeps_synchroniserInv {o : ValidationOutcome} (hP : P.legal) (ho : o ≠ .unknownError) (hv : o ≠ .valid)
    (m : Memory) (k : Nat) (h : SynchroniserInv P s) :
    SynchroniserInv P { s with fbuf := m, fr := s.fr.failed o, draws := k } where
  flenBound := maxFrameLen_pos hP
  fbufWritten := Memory.covers_zero _
  noLateMarker := by simp
  pendingIff := by simp
  foutcomeKnown := ho
  frameIsValid := by simp
  errorIsNotValid := fun _ => hv
  overrunAvail := h.overrunAvail
  payloadHeld := h.payloadHeld
  pidNoMarker := h.pidNoMarker

/-- A FRAME result for an accepted candidate no longer than the capacity gives the invariant, whatever held before: RXP
holds the payload, and the accumulation is empty (R184). -/
theorem deliver_gives_synchroniserInv {f : List Byte} (hP : P.legal) (hf : f.length ≤ P.maxFrameLen)
    (hv : (validate P f).outcome = .valid) (s : State) (m : Memory) (k : Nat) :
    SynchroniserInv P { deliver f s with fbuf := m, draws := k } := by
  obtain ⟨hident, hfits, hpayload⟩ := header_of_validate_valid hv
  have hlen := length_payloadOf hfits
  have hbyte : declaredLen f < 256 := (byteAt f 2).isLt
  rw [frameLen_eq] at hfits
  exact {
    flenBound := maxFrameLen_pos hP
    fbufWritten := Memory.covers_zero _
    noLateMarker := by simp
    pendingIff := by simp
    foutcomeKnown := by simp
    frameIsValid := by simp
    errorIsNotValid := by simp
    overrunAvail := by simp
    payloadHeld :=
      ⟨payloadOf f, hlen, by rw [hlen]; unfold Params.maxPayloadLen; omega, hpayload, Memory.holds_writeBytes _ _ _⟩
    pidNoMarker := fun _ => hident }

/-- One more byte that is no trigger and does not fill the buffer: it is no late marker (R181, R183). -/
theorem accumulated_keeps_synchroniserInv (hP : P.legal) (hn : s.fr.flen.toNat + 1 ≠ P.maxFrameLen)
    (hb : triggers P b (s.fr.flen.toNat + 1) = false) (h : SynchroniserInv P s) :
    SynchroniserInv P { appended b s with fr := s.fr.accumulated (s.fr.flen.toNat + 1) } := by
  have hflen := toNat_len9 hP h.flenBound
  have hne : BitVec.ofNat 9 (s.fr.flen.toNat + 1) ≠ 0#9 := fun h0 => by
    have h1 := congrArg BitVec.toNat h0
    rw [hflen] at h1
    exact Nat.succ_ne_zero _ h1
  exact {
    flenBound := by
      have := h.flenBound
      simp only [accumulated_flen, hflen]
      omega
    fbufWritten := by
      simp only [accumulated_flen, hflen]
      exact covers_appended b h.fbufWritten
    noLateMarker := by
      simp only [accumulated_flen, hflen]
      intro i hi hlt
      rw [appended, Memory.read?_write]
      split_ifs with hlast
      · intro hm
        have := (triggers_eq_false P b _).mp hb (Option.some.inj hm)
        omega
      · exact h.noLateMarker i hi (by omega)
    pendingIff := ⟨fun _ => hne, fun _ => rfl⟩
    foutcomeKnown := h.foutcomeKnown
    frameIsValid := by simp
    errorIsNotValid := by simp
    overrunAvail := h.overrunAvail
    payloadHeld := h.payloadHeld
    pidNoMarker := h.pidNoMarker }

/-- Every push keeps the invariant, along the cases of R181: a trigger that delivers or fails, an overflow, and one more
byte. -/
theorem push_keeps_synchroniserInv (hP : P.legal) (b : Byte) (h : SynchroniserInv P s) :
    SynchroniserInv P (push P b s) := by
  rcases push_cases P b s with ⟨-, hp⟩ | ⟨-, -, hp⟩ | ⟨hb, hn, hp⟩ <;> rw [hp]
  · have hlen : (candidate (s.fr.flen.toNat + 1) (appended b s)).length ≤ P.maxFrameLen := by
      rw [length_candidate]
      exact h.flenBound
    rcases trigger_cases P (s.fr.flen.toNat + 1) (appended b s) with ⟨hv, ht⟩ | ⟨hv, ht⟩ <;> rw [ht]
    · exact deliver_gives_synchroniserInv hP hlen hv s (s.fbuf.write s.fr.flen.toNat b) _
    · have ho := validate_outcome_ne_unknownError P (candidate (s.fr.flen.toNat + 1) (appended b s))
      exact failed_keeps_synchroniserInv (s := s) hP ho hv (s.fbuf.write s.fr.flen.toNat b) _ h
  · exact failed_keeps_synchroniserInv (s := s) hP (by simp) (by simp) (s.fbuf.write s.fr.flen.toNat b) s.draws h
  · exact accumulated_keeps_synchroniserInv hP hn hb h

/-- FCLEAR empties the accumulation and leaves no result (R189). -/
theorem cleared_keeps_synchroniserInv (hP : P.legal) (h : SynchroniserInv P s) :
    SynchroniserInv P { s with fr := s.fr.cleared } where
  flenBound := maxFrameLen_pos hP
  fbufWritten := Memory.covers_zero _
  noLateMarker := by simp
  pendingIff := by simp
  foutcomeKnown := h.foutcomeKnown
  frameIsValid := by simp
  errorIsNotValid := by simp
  overrunAvail := h.overrunAvail
  payloadHeld := h.payloadHeld
  pidNoMarker := h.pidNoMarker

/-- FACK clears the flags that the invariant ties to a held frame (R188). -/
theorem acknowledged_keeps_synchroniserInv (h : SynchroniserInv P s) :
    SynchroniserInv P { s with fr := s.fr.acknowledged } :=
  { h with
    overrunAvail := by simp
    pidNoMarker := by simp }

/-- After reset the accumulation is empty and RXP holds a payload of no bytes (R37). -/
theorem reset_synchroniserInv (hP : P.legal) : SynchroniserInv P State.reset where
  flenBound := maxFrameLen_pos hP
  fbufWritten := Memory.covers_zero _
  noLateMarker := by simp [State.reset]
  pendingIff := by simp [State.reset]
  foutcomeKnown := by simp [State.reset]
  frameIsValid := by simp [State.reset]
  errorIsNotValid := by simp [State.reset]
  overrunAvail := by simp [State.reset]
  payloadHeld := ⟨[], rfl, Nat.zero_le _, List.not_mem_nil, Memory.holds_nil _ _⟩
  pidNoMarker := by simp [State.reset]

/-- Settles O55: a push keeps the invariant along R181's cases, and no other unit writes the synchroniser. -/
theorem stepsKeepTheSynchroniserInv : Obligations.StepsKeepTheSynchroniserInv :=
  keeps_of_agents (reset_synchroniserInv hw_legal)
    (hmodel := fun _ _ _ _ h => { h with })
    (hibuf := fun _ _ _ _ h => { h with })
    (hpush := fun _ b h => push_keeps_synchroniserInv hw_legal b h)
    (hclear := fun _ h => cleared_keeps_synchroniserInv hw_legal h)
    (hack := fun _ h => acknowledged_keeps_synchroniserInv h)
    (hcommand := fun _ _ _ _ hsame _ h => synchroniserInv_congr hsame h)

end Sys2Proof.Machine
end

section
/-! PROOFS. OBUF[0..OBUF_LEN) is a frame (spec/10_state.md R25; spec/42_encoder.md R165). -/

namespace Sys2Proof.Machine

open Sys2Proof.Safety

variable {P : Params} {s t : State}

/-- The invariant speaks of OBUF and OBUF_LEN only. -/
theorem obufInv_congr (hobuf : t.obuf = s.obuf) (hlen : t.obufLen = s.obufLen) (h : ObufInv P s) : ObufInv P t := by
  unfold ObufInv
  rwa [hobuf, hlen]

/-- After ENCODE's writes OBUF holds the frame (R161). -/
theorem holds_encodeInto (P : Params) (m : Memory) (ident : Byte) (p : List Byte) :
    (encodeInto P m ident p).holds 0 (frame P ident p) := by
  intro j hj
  rw [length_frame] at hj
  rw [Nat.zero_add, read?_encodeInto, if_pos hj]

/-- A frame's length fits the 9-bit OBUF_LEN. -/
theorem toNat_frameLen {n : Nat} (hP : P.legal) (h : n ≤ P.maxPayloadLen) :
    (BitVec.ofNat 9 (frameLen n)).toNat = frameLen n := by
  have hfits := maxPayloadLen_fits P hP.1
  refine toNat_len9 hP ?_
  rw [frameLen_eq]
  omega

/-- ENCODE writes a frame, and no other command writes OBUF or OBUF_LEN. -/
theorem exec_keeps_obufInv {i : Instr} (hexec : exec i s = .next t) (h : ObufInv Config.hw s) :
    ObufInv Config.hw t := by
  rcases exec_obuf hexec with ⟨hobuf, hlen⟩ | ⟨ident, len, pabs, dabs, -, hle, hobuf, hlen⟩
  · exact obufInv_congr hobuf hlen h
  · refine .inr ⟨ident, (inputSlice len s).1, ?_, ?_, ?_⟩
    · rwa [length_inputSlice]
    · rw [length_inputSlice, hlen, toNat_frameLen hw_legal hle]
    · rw [hobuf]
      exact holds_encodeInto _ _ _ _

theorem push_keeps_obufInv (b : Byte) (h : ObufInv P s) : ObufInv P (push P b s) := by
  obtain ⟨-, -, hlen, -, hobuf, -⟩ := push_frame P b s
  exact obufInv_congr hobuf hlen h

/-- Settles O56: only ENCODE writes OBUF and OBUF_LEN, and it writes a frame and its length. -/
theorem stepsKeepAFrameInObuf : Obligations.StepsKeepAFrameInObuf :=
  keeps_of_agents (.inl rfl)
    (hmodel := fun _ _ _ _ h => h)
    (hibuf := fun _ _ _ _ h => h)
    (hpush := fun _ b h => push_keeps_obufInv b h)
    (hclear := fun _ h => h)
    (hack := fun _ h => h)
    (hcommand := fun _ _ _ _ _ hexec h => exec_keeps_obufInv hexec h)

/-- Settles O57: at reset no byte is written, and every register is at the value the invariants allow first. -/
theorem resetMeetsTheInvariants : Obligations.ResetMeetsTheInvariants :=
  ⟨reset_buffersInv, .inl rfl, reset_synchroniserInv hw_legal, .inl rfl⟩

end Sys2Proof.Machine
end

section
/-! PROOFS. What a slice of a buffer reads (spec/10_state.md R31). -/

namespace Sys2Proof.Machine

/-- How many of the first `n` bytes from index `i` on nothing has written since reset: the draws a slice of them makes. -/
def Memory.unwritten (m : Memory) (i n : Nat) : Nat := (List.range n).countP (fun t => (m.read? (i + t)).isNone)

theorem Memory.unwritten_zero (m : Memory) (i : Nat) : m.unwritten i 0 = 0 := rfl

/-- Counting from the first byte on, in the order of `readRange`. -/
theorem Memory.unwritten_succ (m : Memory) (i n : Nat) :
    m.unwritten i (n + 1) = (if (m.read? i).isNone then 1 else 0) + m.unwritten (i + 1) n := by
  unfold Memory.unwritten
  rw [List.range_succ_eq_map, List.countP_cons, List.countP_map, Nat.add_zero, Nat.add_comm]
  congr 2
  funext t
  simp only [Function.comp_apply, Nat.succ_eq_add_one, Nat.add_right_comm, Nat.add_assoc]

/-- A byte read is the byte held or the next draw, and makes a draw exactly where none is held (R31). -/
theorem Memory.readByte_eq (m : Memory) (i k : Nat) :
    m.readByte i k = ((m.read? i).getD (Config.freeByte k), (if (m.read? i).isNone then 1 else 0) + k) := by
  cases h : m.read? i with
  | some b => rw [Memory.readByte_of_some h]; simp
  | none => rw [Memory.readByte_of_none h]; simp [Nat.add_comm]

/-- A slice makes one draw for each of its unwritten bytes. -/
theorem Memory.readRange_draws (m : Memory) (i n k : Nat) : (m.readRange i n k).2 = k + m.unwritten i n := by
  induction n generalizing i k with
  | zero => rfl
  | succ n ih =>
    rw [Memory.readRange_succ, Memory.unwritten_succ, Memory.readByte_eq]
    simp only [ih]
    omega

/-- Byte `j` of a slice is the byte held, or the draw numbered by the unwritten bytes before it. -/
theorem Memory.getElem?_readRange (m : Memory) {n j : Nat} (i k : Nat) (hj : j < n) :
    (m.readRange i n k).1[j]? = some ((m.read? (i + j)).getD (Config.freeByte (k + m.unwritten i j))) := by
  induction n generalizing i j k with
  | zero => omega
  | succ n ih =>
    rw [Memory.readRange_succ, Memory.readByte_eq]
    cases j with
    | zero => simp [Memory.unwritten_zero]
    | succ j =>
      rw [List.getElem?_cons_succ, ih (i + 1) _ (Nat.lt_of_succ_lt_succ hj), Memory.unwritten_succ,
        Nat.add_right_comm i 1 j, Nat.add_assoc i j 1, Nat.add_left_comm k, Nat.add_assoc]

/-- Settles O21, by the count of unwritten bytes that the slice has passed. -/
theorem slicesReadWrittenBytesAndFreshDraws : Obligations.SlicesReadWrittenBytesAndFreshDraws :=
  fun m i n k =>
    ⟨m.length_readRange i n k, m.readRange_draws i n k, fun _ hj => m.getElem?_readRange i k hj⟩

end Sys2Proof.Machine
end

section
/-! PROOFS. Which steps may write what (spec/10_state.md R23 to R29, R35). -/

namespace Sys2Proof.Machine

open Sys2Proof.Safety

variable {s t : State} {e : Event}

/-- What an event other than reset may write, one clause for each register or buffer. -/
structure WritesOnlyWhatIsNamed (e : Event) (s t : State) : Prop where
  status : t.status = s.status ∨ ∃ i, Issues e i ∧ commandUnit i = true
  crcVal : t.crcVal = s.crcVal ∨ ∃ i, Issues e i ∧
    ((∃ len pabs chain, i = .checksum len pabs chain) ∨ (∃ len pabs, i = .validate len pabs) ∨
      ∃ ident len pabs dabs, i = .encode ident len pabs dabs)
  obuf : (t.obuf = s.obuf ∧ t.obufLen = s.obufLen) ∨ ∃ ident len pabs dabs, Issues e (.encode ident len pabs dabs)
  ibuf : t.ibuf = s.ibuf ∨ ∃ i, i < Config.hw.maxFrameLen ∧ WritesIbuf e i
  rxp : (t.rxp = s.rxp ∧ t.rxpInfo = s.rxpInfo) ∨ Pushes e Config.hw.marker
  fbuf : t.fbuf = s.fbuf ∨ ∃ b, Pushes e b
  fr : t.fr = s.fr ∨ (∃ b, Pushes e b) ∨ Issues e .fclear ∨ Issues e .fack

/-- A push writes only the frame synchroniser, and RXP only where its byte is a marker. -/
theorem push_writes {b : Byte} (hb : Pushes e b) (s : State) :
    WritesOnlyWhatIsNamed e s (push Config.hw b s) := by
  obtain ⟨hstatus, hcrc, hlen, hibuf, hobuf, -⟩ := push_frame Config.hw b s
  exact {
    status := .inl hstatus
    crcVal := .inl hcrc
    obuf := .inl ⟨hobuf, hlen⟩
    ibuf := .inl hibuf
    rxp := by
      by_cases hm : b = Config.hw.marker
      · exact .inr (hm ▸ hb)
      · exact .inl (push_rxp_of_ne_marker hm s)
    fbuf := .inr ⟨b, hb⟩
    fr := .inr (.inl ⟨b, hb⟩) }

/-- A command writes its own unit only, and there only what it is named for. -/
theorem exec_writes {i : Instr} (hi : Issues e i) (h : exec i s = .next t) : WritesOnlyWhatIsNamed e s t := by
  rcases exec_synchroniser h with ⟨b, rfl, rfl⟩ | ⟨rfl, rfl⟩ | ⟨rfl, rfl⟩ | ⟨hu, hfr, hinfo, hrxp, hfbuf⟩
  · exact push_writes (.inr hi) s
  · exact ⟨.inl rfl, .inl rfl, .inl ⟨rfl, rfl⟩, .inl rfl, .inl ⟨rfl, rfl⟩, .inl rfl, .inr (.inr (.inl hi))⟩
  · exact ⟨.inl rfl, .inl rfl, .inl ⟨rfl, rfl⟩, .inl rfl, .inl ⟨rfl, rfl⟩, .inl rfl, .inr (.inr (.inr hi))⟩
  · exact {
      status := .inr ⟨i, hi, hu⟩
      crcVal := (exec_crcVal h).imp_right fun hc => ⟨i, hi, hc⟩
      obuf := (exec_obuf h).imp_right fun ⟨ident, len, pabs, dabs, he, _⟩ => ⟨ident, len, pabs, dabs, he ▸ hi⟩
      ibuf := .inl (exec_ibuf h)
      rxp := .inl ⟨hrxp.symm, hinfo.symm⟩
      fbuf := .inl hfbuf.symm
      fr := .inl hfr.symm }

/-- Every step but reset writes only what its event is named for. -/
theorem step_writes {rest : List Event} (hs : s.inputs = e :: rest) (h : step s = .next t) (he : e ≠ .reset) :
    WritesOnlyWhatIsNamed e s t := by
  rcases step_cases h with ⟨hnil, -⟩ | ⟨e', rest', hs', hcases⟩
  · rw [hs] at hnil; cases hnil
  · rw [hs] at hs'
    cases hs'
    rcases hcases with ⟨r, k, rfl⟩ | ⟨hr, -⟩ | ⟨b, hb, rfl⟩ | ⟨i, hi, hexec⟩ | ⟨i, v, hw, hi, rfl⟩
    · exact ⟨.inl rfl, .inl rfl, .inl ⟨rfl, rfl⟩, .inl rfl, .inl ⟨rfl, rfl⟩, .inl rfl, .inl rfl⟩
    · exact absurd hr he
    · exact { push_writes (.inl hb) { s with inputs := rest } with }
    · exact { exec_writes hi hexec with }
    · exact ⟨.inl rfl, .inl rfl, .inl ⟨rfl, rfl⟩, .inr ⟨i, hi, hw⟩, .inl ⟨rfl, rfl⟩, .inl rfl, .inl rfl⟩

/-- Settles O50, each clause being one of `step_writes`. -/
theorem onlyTheNamedStepsWriteARegister : Obligations.OnlyTheNamedStepsWriteARegister := by
  intro s t e rest hs h he
  have hw := step_writes hs h he
  refine ⟨hw.status.resolve_left, hw.crcVal.resolve_left, fun hne => hw.obuf.resolve_left ?_, hw.ibuf.resolve_left,
    fun hne => hw.rxp.resolve_left ?_, hw.fbuf.resolve_left, hw.fr.resolve_left⟩
  · exact not_and_or.mpr hne
  · exact not_and_or.mpr hne

end Sys2Proof.Machine
end

section
/-! PROOFS. What a host reads from the registers (spec/10_state.md R22 to R28, R37). -/

namespace Sys2Proof.Machine

/-- A read of an entry that is no buffer byte draws nothing: only the response changes (R67, R68). -/
theorem step_read_register {s : State} {rest : List Event} {off : Offset} {p : Place} {w : Word}
    (hl : legalAccess 32 off = true) (hp : placeAt off = p)
    (hr : readPlace Config.hw { s with inputs := rest } p = (w, s.draws)) :
    step { s with inputs := .hostRead 32 (.offset off) :: rest } =
      .next { s with inputs := rest, response := some (.readData w) } := by
  show Host.Outcome.next (hostRead 32 (.offset off) { s with inputs := rest }) = _
  rcases hostRead_cases 32 (.offset off) { s with inputs := rest } with ⟨h, -⟩ | ⟨o, ho, hno, -⟩ | ⟨o, ho, -, h⟩
  · cases h
  · cases ho; rw [hl] at hno; cases hno
  · cases ho; rw [h, hp, hr]

/-- The layout of STATUS (R23): a field is read by skipping the fields below it; so for the images after it. -/
theorem statusImage_fields (r : StatusReg) :
    r.image.extractLsb' 0 3 = r.outcome.code ∧ r.image.getLsbD 3 = false ∧ r.image.extractLsb' 4 3 = r.vstate.code ∧
    r.image.getLsbD 7 = r.vran ∧ r.image.getLsbD 8 = r.done ∧ r.image.extractLsb' 9 3 = 0#3 ∧
    r.image.extractLsb' 12 4 = r.lastop ∧ r.image.extractLsb' 16 16 = 0#16 := by
  refine ⟨?_, ?_, ?_, ?_, ?_, ?_, ?_, ?_⟩ <;>
    simp (disch := decide) only [StatusReg.image, BitVec.extractLsb'_append_eq_of_add_le,
      BitVec.extractLsb'_append_eq_of_le, BitVec.getLsbD_append] <;>
    simp

theorem crcImage_fields (c : Half) : (crcImage c).extractLsb' 0 16 = c ∧ (crcImage c).extractLsb' 16 16 = 0#16 :=
  ⟨BitVec.extractLsb'_append_eq_right, BitVec.extractLsb'_append_eq_left⟩

theorem obufLenImage_fields (n : Len9) :
    (obufLenImage n).extractLsb' 0 9 = n ∧ (obufLenImage n).extractLsb' 9 23 = 0#23 :=
  ⟨BitVec.extractLsb'_append_eq_right, BitVec.extractLsb'_append_eq_left⟩

theorem frStatusImage_fields (f : FrStatusReg) :
    f.image.extractLsb' 0 2 = f.result.code ∧ f.image.extractLsb' 2 2 = 0#2 ∧
    f.image.extractLsb' 4 3 = f.foutcome.code ∧ f.image.getLsbD 7 = false ∧ f.image.getLsbD 8 = f.favail ∧
    f.image.getLsbD 9 = f.overrun ∧ f.image.getLsbD 10 = f.ferr ∧ f.image.extractLsb' 11 5 = 0#5 ∧
    f.image.extractLsb' 16 9 = f.flen ∧ f.image.extractLsb' 25 7 = 0#7 := by
  refine ⟨?_, ?_, ?_, ?_, ?_, ?_, ?_, ?_, ?_, ?_⟩ <;>
    simp (disch := decide) only [FrStatusReg.image, BitVec.extractLsb'_append_eq_of_add_le,
      BitVec.extractLsb'_append_eq_of_le, BitVec.getLsbD_append] <;>
    simp

theorem rxpInfoImage_fields (r : RxpInfoReg) :
    r.image.extractLsb' 0 8 = r.plen ∧ r.image.extractLsb' 8 8 = r.pid ∧ r.image.extractLsb' 16 16 = 0#16 := by
  refine ⟨?_, ?_, ?_⟩ <;>
    simp (disch := decide) only [RxpInfoReg.image, BitVec.extractLsb'_append_eq_of_add_le,
      BitVec.extractLsb'_append_eq_of_le] <;>
    simp

theorem paramImage_fields {P : Params} (hP : P.legal) :
    (paramImage P).extractLsb' 0 8 = P.marker ∧ (paramImage P).extractLsb' 8 8 = 0#8 ∧
    ((paramImage P).extractLsb' 16 9).toNat = P.maxFrameLen ∧ (paramImage P).extractLsb' 25 6 = 0#6 ∧
    (paramImage P).getLsbD 31 = P.strictTotalLength := by
  have hlen := toNat_len9 hP (Nat.le_refl P.maxFrameLen)
  refine ⟨?_, ?_, ?_, ?_, ?_⟩ <;>
    simp (disch := decide) only [paramImage, BitVec.extractLsb'_append_eq_of_add_le,
      BitVec.extractLsb'_append_eq_of_le, BitVec.getLsbD_append] <;>
    simp [hlen]

/-- Settles O10: each register's read is its image, whose fields are read off its layout. -/
theorem commandUnitRegistersRead : Obligations.CommandUnitRegistersRead := fun s rest =>
  ⟨step_read_register (p := .cmd) (by decide) (by decide) rfl,
    ⟨s.status.image, step_read_register (p := .status) (by decide) (by decide) rfl, statusImage_fields s.status⟩,
    ⟨crcImage s.crcVal, step_read_register (p := .crc) (by decide) (by decide) rfl, crcImage_fields s.crcVal⟩,
    ⟨obufLenImage s.obufLen, step_read_register (p := .obufLen) (by decide) (by decide) rfl,
      obufLenImage_fields s.obufLen⟩⟩

/-- Settles O11, as O10. -/
theorem synchroniserRegistersRead : Obligations.SynchroniserRegistersRead := fun s rest =>
  ⟨⟨s.fr.image, step_read_register (p := .frStatus) (by decide) (by decide) rfl, frStatusImage_fields s.fr⟩,
    ⟨s.rxpInfo.image, step_read_register (p := .rxpInfo) (by decide) (by decide) rfl,
      rxpInfoImage_fields s.rxpInfo⟩⟩

/-- The parameters of this hardware spell 0x0102007E (R28). -/
theorem paramImage_hw : paramImage Config.hw = 0x0102007E#32 := by decide

/-- Settles O12: a read of PARAM looks at nothing of the state. -/
theorem paramIsAConstantImage : Obligations.ParamIsAConstantImage :=
  ⟨fun _ hP => paramImage_fields hP, fun s rest =>
    step_read_register (p := .param) (by decide) (by decide) (by rw [← paramImage_hw]; rfl)⟩

/-- Settles O20: the images of the listed reset values, evaluated. -/
theorem resetStateHasTheListedValues : Obligations.ResetStateHasTheListedValues :=
  ⟨by decide, by decide, by decide, by decide, by decide, paramImage_hw⟩

end Sys2Proof.Machine
end

section
/-! PROOFS. What one host access does (spec/20_memory.md R60 to R68): a rule per kind of access, by the offset at which
it reaches the block, and then the statements about the bus. -/

namespace Sys2Proof.Machine

variable {s : State} {rest : List Event} {width : Nat} {at_ : BusAddr} {off : Offset} {v : Word}

/-! ### Whether and where an access reaches the block -/

theorem step_hostRead : step { s with inputs := .hostRead width at_ :: rest } =
    .next (hostRead width at_ { s with inputs := rest }) := rfl

theorem step_hostWrite : step { s with inputs := .hostWrite width at_ v :: rest } =
    hostWrite width at_ v { s with inputs := rest } := rfl

/-- The block sees of an address only the offset at which it reaches the window. -/
theorem hostRead_congr {a b : BusAddr} (h : a.reaches = b.reaches) : hostRead width a s = hostRead width b s := by
  unfold hostRead; rw [h]

theorem hostWrite_congr {a b : BusAddr} (h : a.reaches = b.reaches) :
    hostWrite width a v s = hostWrite width b v s := by
  unfold hostWrite; rw [h]

theorem hostRead_outside (h : at_.reaches = none) : hostRead width at_ s = s.respond none := by
  unfold hostRead; rw [h]

theorem hostWrite_outside (h : at_.reaches = none) : hostWrite width at_ v s = .next (s.respond none) := by
  unfold hostWrite; rw [h]

/-- Settles O17: the address form matters only through the offset it reaches, and outside the window it reaches none. -/
theorem theWindowIsSixteenKibAtBase : Obligations.TheWindowIsSixteenKibAtBase := by
  intro s width addr v rest
  refine ⟨fun off haddr => ?_, fun hout => ?_⟩
  · subst haddr
    have hreach : (BusAddr.absolute (Config.pBase + off.toNat)).reaches = (BusAddr.offset off).reaches :=
      reaches_in_window off
    rw [step_hostRead, step_hostWrite, hostRead_congr hreach, hostWrite_congr hreach]
    exact ⟨rfl, rfl⟩
  · have hreach := reaches_out_of_window hout
    rw [step_hostRead, step_hostWrite, hostRead_outside hreach, hostWrite_outside hreach]
    exact ⟨rfl, rfl⟩

/-! ### The access check -/

theorem hostRead_illegal (hl : legalAccess width off = false) :
    hostRead width (.offset off) s = s.respond (some (.busError off)) := by
  simp [hostRead, hl]

theorem hostWrite_illegal (hl : legalAccess width off = false) :
    hostWrite width (.offset off) v s = .next (s.respond (some (.busError off))) := by
  simp [hostWrite, hl]

theorem legalAccess_of_aligned (h : off.extractLsb' 0 2 = 0#2) : legalAccess 32 off = true :=
  (legalAccess_iff 32 off).mpr ⟨rfl, h⟩

/-- Settles O16: the access check fails, so the response is all that changes. -/
theorem illegalAccessesChangeNothing : Obligations.IllegalAccessesChangeNothing := by
  intro s width off v rest hbad
  have hl : legalAccess width off = false := by
    rw [Bool.eq_false_iff, Ne, legalAccess_iff]
    exact not_and_or.mpr hbad
  rw [step_hostRead, step_hostWrite, hostRead_illegal hl, hostWrite_illegal hl]
  exact ⟨rfl, rfl⟩

/-! ### Writes to CMD -/

/-- A write that reaches CMD runs its command once the bus has answered (R66). -/
theorem step_write_cmd (hr : at_.reaches = some 0#14) :
    step { s with inputs := .hostWrite 32 at_ v :: rest } =
      exec (decode v) { s with inputs := rest, response := some .writeDone } := by
  rw [step_hostWrite, hostWrite_congr (b := .offset 0#14) hr]
  rfl

/-- Settles O6: each of the three writes reaches the block at offset 0. -/
theorem commandWriteStepRunsItsCommand : Obligations.CommandWriteStepRunsItsCommand := by
  rintro s w i rest rfl
  have hfetch : BitVec.ofNat 32 (w.toNat % 2 ^ 32) = w := by
    rw [Nat.mod_eq_of_lt w.isLt, BitVec.ofNat_toNat, BitVec.setWidth_eq]
  refine ⟨step_write_cmd rfl, step_write_cmd (reaches_in_window 0#14), ?_⟩
  unfold State.withFetchWord
  rw [hfetch]
  exact step_write_cmd rfl

/-! ### Reads -/

/-- A legal read answers with its entry's word, and only the model's count of draws may change besides (R68). -/
theorem step_read (hs : s.inputs = .hostRead 32 (.offset off) :: rest) (hal : off.extractLsb' 0 2 = 0#2) :
    step s = .next
      { s with
        inputs := rest
        draws := (readPlace Config.hw s (placeAt off)).2
        response := some (.readData (readPlace Config.hw s (placeAt off)).1) } := by
  rw [step_of_cons hs]
  simp only [agentStep, hostRead, reaches_offset, legalAccess_of_aligned hal, if_true,
    readPlace_congr Config.hw s rest s.response]

/-- Settles O8: the command leaves the waiting read at the head of the inputs, and that read looks at the state the
command left. -/
theorem commandResultsAreReadableInTheNextStep : Obligations.CommandResultsAreReadableInTheNextStep := by
  intro s w off rest hal
  obtain ⟨u, hexec, hinputs, -⟩ := exec_answers_next (decode w)
    { s with inputs := .hostRead 32 (.offset off) :: rest, response := some .writeDone }
  exact ⟨u, (step_write_cmd rfl).trans hexec, hexec, step_read hinputs hal⟩

/-- The reserved range of the register map (R62). -/
theorem placeAt_reserved (hlo : 0x001C ≤ off.toNat) (hhi : off.toNat ≤ 0x0FFC) : placeAt off = .reserved := by
  unfold placeAt
  dsimp only
  rw [if_pos (by omega)]
  iterate 7 rw [if_neg (by omega)]

/-- Settles O13: a reserved offset is an entry that holds nothing. -/
theorem reservedOffsetsReadZero : Obligations.ReservedOffsetsReadZero := fun _ _ _ hal hlo hhi =>
  step_read_register (legalAccess_of_aligned hal) (placeAt_reserved hlo hhi) rfl

/-- One byte of a buffer window, its word and the count of draws told apart (R64, R65, R31). -/
theorem readWindow_eq (P : Params) (m : Memory) (i k : Nat) :
    readWindow P m i k =
      (if i < P.maxFrameLen then ((m.read? i).getD (Config.freeByte k)).setWidth 32 else 0#32,
        if i < P.maxFrameLen ∧ m.read? i = none then k + 1 else k) := by
  unfold readWindow
  by_cases hi : i < P.maxFrameLen
  · cases hm : m.read? i with
    | some b => simp [hi, Memory.readByte_of_some hm]
    | none => simp [hi, Memory.readByte_of_none hm]
  · simp [hi]

/-- Every word of a window that begins at an aligned offset is aligned. -/
theorem aligned_ofNat {base : Nat} (h : base % 4 = 0) (i : Nat) :
    (BitVec.ofNat 14 (base + 4 * i)).extractLsb' 0 2 = 0#2 := by
  rw [aligned_iff, BitVec.toNat_ofNat]
  omega

/-- A read in a window of the buffer `m`, whose entries are read by `readWindow`. -/
theorem step_read_window {base i : Nat} {m : Memory} (hbase : base % 4 = 0)
    (hread : readPlace Config.hw s (placeAt (BitVec.ofNat 14 (base + 4 * i))) = readWindow Config.hw m i s.draws) :
    step { s with inputs := .hostRead 32 (.offset (BitVec.ofNat 14 (base + 4 * i))) :: rest } =
      .next
        { s with
          inputs := rest
          draws := if i < Config.hw.maxFrameLen ∧ m.read? i = none then s.draws + 1 else s.draws
          response := some (.readData
            (if i < Config.hw.maxFrameLen then ((m.read? i).getD (Config.freeByte s.draws)).setWidth 32
            else 0#32)) } := by
  rw [step_read rfl (aligned_ofNat hbase i), readPlace_congr Config.hw s _ s.response, hread, readWindow_eq]

/-- Settles O14: the three windows differ only in the buffer that the entry at the offset names. -/
theorem bufferWindowsReadOneByteAWord : Obligations.BufferWindowsReadOneByteAWord := by
  rintro s rest i hi ⟨base, m⟩ hw
  simp only [List.mem_cons, List.not_mem_nil, or_false, Prod.mk.injEq] at hw
  dsimp only
  obtain ⟨rfl, rfl⟩ | ⟨rfl, rfl⟩ | ⟨rfl, rfl⟩ := hw
  · exact step_read_window (by decide) (by rw [placeAt_ibuf hi]; rfl)
  · exact step_read_window (by decide) (by rw [placeAt_obuf hi]; rfl)
  · exact step_read_window (by decide) (by rw [placeAt_rxp hi]; rfl)

/-- A read looks at neither the waiting inputs nor the last response, and leaves the inputs as they are. -/
theorem hostRead_inputs_response (width : Nat) (at_ : BusAddr) (s : State) (is : List Event) (r : Option BusResponse) :
    hostRead width at_ { s with inputs := is, response := r } = { hostRead width at_ s with inputs := is } := by
  unfold hostRead
  cases at_.reaches with
  | none => rfl
  | some off =>
    dsimp only
    split_ifs
    · rw [readPlace_congr]
    · rfl

/-- A read changes nothing but the response and the count of draws, which rises by at most one (R68, R31). -/
theorem hostRead_frame (width : Nat) (at_ : BusAddr) (s : State) :
    ∃ r k, hostRead width at_ s = { s with response := r, draws := k } ∧ s.draws ≤ k ∧ k ≤ s.draws + 1 := by
  rcases hostRead_cases width at_ s with ⟨-, h⟩ | ⟨off, -, -, h⟩ | ⟨off, -, -, h⟩
  · exact ⟨_, s.draws, h, by omega, by omega⟩
  · exact ⟨_, s.draws, h, by omega, by omega⟩
  · have hdraws := readPlace_draws Config.hw s (placeAt off)
    exact ⟨_, _, h, by omega, by omega⟩

/-- Settles O18: without a draw, the second read runs in a state that differs from the first one's only where no read
looks. -/
theorem hostReadsHaveNoSideEffect : Obligations.HostReadsHaveNoSideEffect := by
  intro s width at_ rest
  obtain ⟨r, k, hread, hle, hge⟩ := hostRead_frame width at_ s
  refine ⟨r, k, ?_, hle, hge, ?_⟩
  · rw [step_hostRead, hostRead_inputs_response width at_ s _ s.response, hread]
  · rintro rfl
    rw [step_hostRead (s := { s with response := r }), hostRead_inputs_response width at_ s rest r, hread]

/-! ### Writes other than to CMD -/

/-- A write of an entry changes at most the byte of IBUF that the entry names (R64, R65, R67). -/
theorem writePlace_frame (P : Params) (v : Word) (s : State) (p : Place) :
    ∃ m : Memory, writePlace P v s p = { s with ibuf := m } ∧
      ∀ j, m.read? j = if p = .ibuf j ∧ j < P.maxFrameLen then some (v.setWidth 8) else s.ibuf.read? j := by
  cases p with
  | ibuf i =>
    by_cases hi : i < P.maxFrameLen
    · refine ⟨s.ibuf.write i (v.setWidth 8), if_pos hi, fun j => ?_⟩
      rw [Memory.read?_write]
      by_cases hj : j = i
      · subst hj; simp [hi]
      · simp [hj, Ne.symm hj]
    · refine ⟨s.ibuf, if_neg hi, fun j => (if_neg ?_).symm⟩
      rintro ⟨hij, hj⟩
      cases hij
      exact hi hj
  | _ => exact ⟨s.ibuf, rfl, fun j => by simp⟩

/-- The IBUF window of the register map (R62), at an aligned offset. -/
theorem placeAt_eq_ibuf_iff (hal : off.extractLsb' 0 2 = 0#2) (j : Nat) :
    placeAt off = .ibuf j ↔ 0x1000 ≤ off.toNat ∧ off.toNat < 0x2000 ∧ off.toNat = 0x1000 + 4 * j := by
  rw [aligned_iff] at hal
  unfold placeAt
  dsimp only
  split_ifs <;> simp <;> omega

theorem step_write_entry (hal : off.extractLsb' 0 2 = 0#2) (h0 : off ≠ 0#14) :
    step { s with inputs := .hostWrite 32 (.offset off) v :: rest } =
      .next (writePlace Config.hw v { s with inputs := rest, response := some .writeDone } (placeAt off)) := by
  rw [step_hostWrite]
  rcases hostWrite_cases 32 (.offset off) v { s with inputs := rest } with
    ⟨h, -⟩ | ⟨o, h, hno, -⟩ | ⟨h, -, -⟩ | ⟨o, h, -, -, hwrite⟩ <;> cases h
  · rw [legalAccess_of_aligned hal] at hno; cases hno
  · exact absurd rfl h0
  · exact hwrite

/-- Settles O15: the byte that the entry at the offset names is the one that the statement's window expression names. -/
theorem hostWritesChangeOnlyIbuf : Obligations.HostWritesChangeOnlyIbuf := by
  intro s off v rest hal h0
  obtain ⟨m, hwrite, hbytes⟩ :=
    writePlace_frame Config.hw v { s with inputs := rest, response := some .writeDone } (placeAt off)
  refine ⟨m, by rw [step_write_entry hal h0, hwrite], fun j => ?_⟩
  have hiff : (0x1000 ≤ off.toNat ∧ off.toNat < 0x2000 ∧ j < Config.hw.maxFrameLen ∧ off.toNat = 0x1000 + 4 * j) ↔
      (placeAt off = .ibuf j ∧ j < Config.hw.maxFrameLen) := by
    rw [placeAt_eq_ibuf_iff hal]; tauto
  rw [hbytes, ← BitVec.setWidth_eq_extractLsb' (by decide)]
  simp only [hiff]

end Sys2Proof.Machine
end

section
/-! PROOFS. What the command word decodes to (spec/30_encoding.md R95 to R107): the decoder by opcode, the fields that a
mask keeps, the opcode table's row of a command, and then the statements about the encoding. -/

namespace Sys2Proof

open Sys2Proof.Safety

variable {i j : Instr} {w : Word}

/-! ### The decoder by opcode -/

/-- The bits the decoder looks at are those of OPC. -/
theorem bits_of_fieldOpc {op : BitVec 4} (h : fieldOpc w = op) :
    w.getLsbD 3 = op.getLsbD 3 ∧ w.getLsbD 2 = op.getLsbD 2 ∧ w.getLsbD 1 = op.getLsbD 1 ∧
      w.getLsbD 0 = op.getLsbD 0 := by
  subst h
  simp [fieldOpc]

theorem decode_checksum (h : fieldOpc w = 0x1#4) :
    decode w = .checksum (fieldLen w) (fieldPabs w) (fieldChain w) := by
  simp only [decode, bits_of_fieldOpc h]; rfl

theorem decode_validate (h : fieldOpc w = 0x2#4) : decode w = .validate (fieldLen w) (fieldPabs w) := by
  simp only [decode, bits_of_fieldOpc h]; rfl

theorem decode_encode (h : fieldOpc w = 0x3#4) :
    decode w = .encode (fieldId w) (fieldLen w) (fieldPabs w) (fieldDabs w) := by
  simp only [decode, bits_of_fieldOpc h]; rfl

theorem decode_fpush (h : fieldOpc w = 0x4#4) : decode w = .fpush (fieldId w) := by
  simp only [decode, bits_of_fieldOpc h]; rfl

theorem decode_fclear (h : fieldOpc w = 0x5#4) : decode w = .fclear := by
  simp only [decode, bits_of_fieldOpc h]; rfl

theorem decode_fack (h : fieldOpc w = 0x6#4) : decode w = .fack := by
  simp only [decode, bits_of_fieldOpc h]; rfl

/-- The reserved commands are those of the reserved opcodes (R99). -/
theorem mem_reservedCommands_iff : i ∈ reservedCommands ↔ i.opc = 0x0#4 ∨ 0x7#4 ≤ i.opc := by
  cases i <;> simp [reservedCommands, Instr.opc]

/-- A reserved command has no operand: its opcode says which one it is. -/
theorem reservedCommands_opc_inj : ∀ i ∈ reservedCommands, ∀ j ∈ reservedCommands, i.opc = j.opc → i = j := by
  decide

theorem decode_reserved (hi : i ∈ reservedCommands) (h : fieldOpc w = i.opc) : decode w = i := by
  have hopc : (decode w).opc = i.opc := (opc_decode w).trans h
  exact reservedCommands_opc_inj _ (by rwa [mem_reservedCommands_iff, hopc, ← mem_reservedCommands_iff]) _ hi hopc

/-- Settles O4: the equations above, opcode by opcode; a reserved opcode is that of a reserved command. -/
theorem commandWordDecodesByItsFields : Obligations.CommandWordDecodesByItsFields := fun w =>
  ⟨decode_checksum, decode_validate, decode_encode, decode_fpush, decode_fclear, decode_fack, fun h =>
    ⟨mem_reservedCommands_iff.2 ((opc_decode w).symm ▸ h), opc_decode w⟩⟩

/-- Settles O5: the decoder evaluated on each listed word. -/
theorem listedCommandWordsDecode : Obligations.ListedCommandWordsDecode :=
  ⟨rfl, rfl, rfl, rfl, rfl, rfl, rfl, rfl, rfl, rfl, rfl, rfl⟩

/-! ### The word of a command -/

theorem fieldOpc_encode (i : Instr) : fieldOpc (encode i) = i.opc := by
  cases i <;> exact fieldOpc_commandWord _ _ _ _ _ _

/-- Settles O1: the word has the command's opcode, and each operand is read back from its field. -/
theorem decodeOfEncodedCommand : Obligations.DecodeOfEncodedCommand := by
  intro i hwf
  have hopc := fieldOpc_encode i
  cases i with
  | checksum len pabs chain =>
    have hlen : len < lenRange := of_decide_eq_true hwf
    rw [decode_checksum hopc]
    simp [encode, fieldLen_commandWord _ _ _ _ _ hlen]
  | validate len pabs =>
    have hlen : len < lenRange := of_decide_eq_true hwf
    rw [decode_validate hopc]
    simp [encode, fieldLen_commandWord _ _ _ _ _ hlen]
  | encode ident len pabs dabs =>
    have hlen : len < lenRange := of_decide_eq_true hwf
    rw [decode_encode hopc]
    simp [encode, fieldLen_commandWord _ _ _ _ _ hlen]
  | fpush b => rw [decode_fpush hopc, encode, fieldId_commandWord]
  | fclear => exact decode_fclear hopc
  | fack => exact decode_fack hopc
  | _ => exact decode_reserved (by simp [reservedCommands]) hopc

theorem fieldLen_lt (w : Word) : fieldLen w < lenRange := BitVec.isLt _

/-- A decoded length is that of the field. -/
theorem wellFormed_decode (w : Word) : (decode w).wellFormed = true := by
  have hopc := (opc_decode w).symm
  generalize h : decode w = i at hopc ⊢
  cases i with
  | checksum len pabs chain =>
    cases h.symm.trans (decode_checksum hopc)
    exact decide_eq_true (fieldLen_lt w)
  | validate len pabs =>
    cases h.symm.trans (decode_validate hopc)
    exact decide_eq_true (fieldLen_lt w)
  | encode ident len pabs dabs =>
    cases h.symm.trans (decode_encode hopc)
    exact decide_eq_true (fieldLen_lt w)
  | _ => rfl

/-- Masking a word with a word made from fields masks each field and clears the reserved bits. -/
theorem and_commandWord (w : Word) (opc : BitVec 4) (ident : Byte) (len : Nat) (pabs dabs chain : Bool) :
    w &&& commandWord opc ident len pabs dabs chain =
      commandWord (fieldOpc w &&& opc) (fieldId w &&& ident) (fieldLen w &&& len) (fieldPabs w && pabs)
        (fieldDabs w && dabs) (fieldChain w && chain) := by
  have hlen : BitVec.ofNat 9 (fieldLen w &&& len) = w.extractLsb' 16 9 &&& BitVec.ofNat 9 len := by
    rw [BitVec.ofNat_and, fieldLen, BitVec.ofNat_toNat, BitVec.setWidth_eq]
  apply BitVec.eq_of_getLsbD_eq
  intro k hk
  simp only [BitVec.getLsbD_and, getLsbD_commandWord, hlen, fieldOpc, fieldId, fieldPabs, fieldDabs, fieldChain,
    BitVec.getLsbD_extractLsb']
  split_ifs with h4 h8 h16 h25 hpabs hdabs hchain
  · simp [h4]
  · simp
  · simp [show k - 8 < 8 by omega, show 8 + (k - 8) = k by omega]
  · simp [show k - 16 < 9 by omega, show 16 + (k - 16) = k by omega]
  · simp [hpabs]
  · simp [hdabs]
  · simp [hchain]
  · simp

/-- The bits of a command's word that the command is read from: OPC and the fields it uses (R97). -/
def Instr.usedBits : Instr → Word
  | .checksum _ _ _ => commandWord 0xF#4 0 511 true false true
  | .validate _ _ => commandWord 0xF#4 0 511 true false false
  | .encode _ _ _ _ => commandWord 0xF#4 0xFF#8 511 true true false
  | .fpush _ => commandWord 0xF#4 0xFF#8 0 false false false
  | _ => commandWord 0xF#4 0 0 false false false

@[simp] theorem fieldOpc_and_ones (w : Word) : fieldOpc w &&& 0xF#4 = fieldOpc w := BitVec.and_allOnes

@[simp] theorem fieldId_and_ones (w : Word) : fieldId w &&& 0xFF#8 = fieldId w := BitVec.and_allOnes

@[simp] theorem fieldLen_and_ones (w : Word) : fieldLen w &&& 511 = fieldLen w :=
  Nat.and_two_pow_sub_one_of_lt_two_pow (n := 9) (fieldLen_lt w)

/-- The word of the decoded command is the word less the bits that the command is not read from (R98). -/
theorem encode_decode (w : Word) : encode (decode w) = w &&& (decode w).usedBits := by
  have hopc := (opc_decode w).symm
  generalize h : decode w = i at hopc ⊢
  cases i with
  | checksum len pabs chain =>
    cases h.symm.trans (decode_checksum hopc)
    simp [encode, Instr.usedBits, and_commandWord, hopc, Instr.opc]
  | validate len pabs =>
    cases h.symm.trans (decode_validate hopc)
    simp [encode, Instr.usedBits, and_commandWord, hopc, Instr.opc]
  | encode ident len pabs dabs =>
    cases h.symm.trans (decode_encode hopc)
    simp [encode, Instr.usedBits, and_commandWord, hopc, Instr.opc]
  | fpush b =>
    cases h.symm.trans (decode_fpush hopc)
    simp [encode, Instr.usedBits, and_commandWord, hopc, Instr.opc]
  | _ => simp [encode, Instr.usedBits, and_commandWord, hopc, Instr.opc]

/-! ### The opcode table -/

/-- The row of a command in the opcode table (R97). -/
def Instr.row (i : Instr) : OpcodeRow where
  mnemonic := i.mnemonic
  pattern := commandWord i.opc 0 0 false false false
  mask := commandWord 0xF#4 0 0 false false false
  used := i.usedBits

/-- The rows stand in the order of their opcodes. -/
theorem getElem?_opcodeTable (i : Instr) : opcodeTable[i.opc.toNat]? = some i.row := by
  cases i <;> simp [opcodeTable, Instr.row, Instr.opc, Instr.mnemonic, Instr.usedBits, commandWord]

theorem row_mem_opcodeTable (i : Instr) : i.row ∈ opcodeTable := List.mem_of_getElem? (getElem?_opcodeTable i)

/-- Each row is that of the command its pattern spells. -/
theorem row_of_mem_opcodeTable : ∀ r ∈ opcodeTable, (decode r.pattern).row = r := by decide

/-- A row hits the words that have its opcode. -/
theorem row_hits_iff (i : Instr) (w : Word) : i.row.hits w = true ↔ fieldOpc w = i.opc := by
  have hmask : w &&& i.row.mask = commandWord (fieldOpc w) 0 0 false false false := by
    simp [Instr.row, and_commandWord]
  rw [OpcodeRow.hits, beq_iff_eq, hmask]
  constructor
  · intro h
    simpa [Instr.row] using congrArg fieldOpc h
  · intro h
    rw [h]; rfl

/-- The commands of one opcode have one row. -/
theorem row_congr (h : i.opc = j.opc) : i.row = j.row :=
  Option.some.inj (by rw [← getElem?_opcodeTable, ← getElem?_opcodeTable, h])

theorem opcodeTable_mnemonics_nodup : (opcodeTable.map OpcodeRow.mnemonic).Nodup := by decide

/-- The mnemonic names the opcode. -/
theorem mnemonic_eq_iff : i.mnemonic = j.mnemonic ↔ i.opc = j.opc := by
  have hget (k : Instr) : (opcodeTable.map OpcodeRow.mnemonic)[k.opc.toNat]? = some k.mnemonic := by
    rw [List.getElem?_map, getElem?_opcodeTable]; rfl
  constructor
  · intro h
    exact BitVec.eq_of_toNat_eq ((List.getElem?_inj i.opc.isLt opcodeTable_mnemonics_nodup).1 (by rw [hget, hget, h]))
  · intro h
    exact congrArg OpcodeRow.mnemonic (row_congr h)

/-- Settles O3: the row of a command hits the words of its opcode, and the mnemonic names the opcode. -/
theorem everyWordHitsItsOneTableRow : Obligations.EveryWordHitsItsOneTableRow := by
  intro w
  refine ⟨⟨(decode w).row, row_mem_opcodeTable _, (row_hits_iff _ w).2 (opc_decode w).symm⟩, fun r hr => ?_⟩
  rw [← row_of_mem_opcodeTable r hr, row_hits_iff, ← opc_decode]
  exact eq_comm.trans mnemonic_eq_iff.symm

/-- Settles O2: the row that hits is the decoded command's, and the word less its ignored bits is that command's own. -/
theorem ignoredBitsDoNotChangeTheCommand : Obligations.IgnoredBitsDoNotChangeTheCommand := by
  intro w r hr hhits
  have hrow : (decode w).row = r := by
    rw [← row_of_mem_opcodeTable r hr, row_hits_iff] at hhits
    exact (row_congr ((opc_decode w).trans hhits)).trans (row_of_mem_opcodeTable r hr)
  have hencode : encode (decode w) = w &&& r.used := by rw [← hrow]; exact encode_decode w
  exact ⟨wellFormed_decode w, hencode, hencode ▸ decodeOfEncodedCommand _ (wellFormed_decode w)⟩

end Sys2Proof

namespace Sys2Proof.Machine

open Sys2Proof.Safety

/-! ### The code tables and the reserved opcodes -/

/-- Settles O9: the codes of the named values, and no other value to produce a code. -/
theorem codeTablesAreAsListed : Obligations.CodeTablesAreAsListed :=
  ⟨rfl, rfl, rfl, fun o => by cases o <;> decide, fun q => by cases q <;> decide⟩

theorem exec_reserved {i : Instr} (hi : i ∈ reservedCommands) (s : State) :
    exec i s = .next (s.report i.opc .unknownError) := by
  cases i with
  | checksum | validate | encode | fpush | fclear | fack => simp [reservedCommands] at hi
  | _ => rfl

/-- The STATUS word of the report of a reserved opcode (R99). -/
theorem image_unknownErrorReport : ∀ op : BitVec 4,
    (reportOf op .unknownError).image = 0x00000104#32 ||| (op.setWidth 32 <<< 12) := by
  decide

/-- Settles O36: every reserved opcode is reported alike, and the STATUS word is checked once per opcode. -/
theorem reservedOpcodesReportUnknownError : Obligations.ReservedOpcodesReportUnknownError :=
  ⟨fun i hi s => ⟨exec_reserved hi s, image_unknownErrorReport i.opc⟩, fun _ =>
    ⟨_, exec_reserved (i := .rsvd7) (by decide) _, image_unknownErrorReport 0x7#4⟩⟩

end Sys2Proof.Machine
end

section
/-! PROOFS. CHECKSUM and the error detection of the CRC (spec/40_checksum.md R110 to R117): what an accepted CHECKSUM
leaves, and the CRC of two bytes as 16 rounds over one word, which no change of the two bytes keeps. -/

namespace Sys2Proof.Machine

/-! ### The listed registers, and CHECKSUM -/

/-- Settles O22: the listed registers, evaluated. -/
theorem crcRoundTraceIsAsListed : Obligations.CrcRoundTraceIsAsListed :=
  ⟨rfl, rfl, rfl, rfl, rfl⟩

/-- What CHECKSUM does is `checksumCommand` with this hardware's parameters. -/
theorem exec_checksum (len : Nat) (pabs chain : Bool) (s : State) :
    exec (.checksum len pabs chain) s = .next (checksumCommand Config.hw len pabs chain s) := rfl

/-- CHECKSUM of a written input continues the CRC over it, and draws nothing (R113). -/
theorem exec_checksum_of_holds {s : State} {bs : List Byte} (chain : Bool) (hlen : bs.length ≤ Config.hw.maxFrameLen)
    (h : s.ibuf.holds 0 bs) :
    exec (.checksum bs.length false chain) s =
      .next { s with crcVal := crc16 (checksumInit chain s) bs, status := reportOf 0x1#4 .valid } := by
  rw [exec_checksum, checksumCommand, if_neg Bool.false_ne_true, if_neg (Nat.not_lt.mpr hlen), inputSlice_of_holds h]

/-- Settles O23: the next state is `checksumCommand`'s, written out; the example is the word of a CHECKSUM over three
written bytes, whose CRC is the last of O22's. -/
theorem checksumComputesTheCrc : Obligations.ChecksumComputesTheCrc := by
  refine ⟨exec_checksum, fun s hs => ?_⟩
  have hdecode : decode 0x00030001#32 = .checksum [0x00#8, 0x01#8, 0x02#8].length false false := rfl
  have himage : (reportOf 0x1#4 .valid).image = 0x00001100#32 := by decide
  have hcrc : crcImage (crc16 (checksumInit false s) [0x00#8, 0x01#8, 0x02#8]) = 0x0000DFEF#32 := by
    obtain ⟨-, -, -, -, hlast⟩ := crcRoundTraceIsAsListed
    rw [checksumInit, if_neg Bool.false_ne_true, hlast]; rfl
  rw [hdecode]
  exact ⟨_, exec_checksum_of_holds false (by decide) hs, hcrc, himage, rfl⟩

/-- Settles O24: the second CHECKSUM starts from the CRC that the first one left. -/
theorem chainedChecksumsEqualOneChecksum : Obligations.ChainedChecksumsEqualOneChecksum := by
  refine ⟨fun init a b => (crc16_append init a b).symm, fun a b chain s u ha hb hs hu => ?_⟩
  refine ⟨_, exec_checksum_of_holds chain ha hs, fun hkept => ⟨_, exec_checksum_of_holds true hb hu, ?_⟩⟩
  calc crc16 u.crcVal b
    _ = crc16 (crc16 (checksumInit chain s) a) b := by rw [hkept]
    _ = crc16 (checksumInit chain s) (a ++ b) := (crc16_append _ a b).symm

/-! ### Two adjacent bytes -/

/-- Rounds in which the polynomial does not come in only shift. -/
theorem crcRounds_of_lt {n : Nat} {r : Half} (h : r.toNat * 2 ^ n < 2 ^ 16) : crcRounds n r = r <<< n := by
  induction n generalizing r with
  | zero => simp [crcRounds]
  | succ n ih =>
    have hdouble : r.toNat * 2 * 2 ^ n < 2 ^ 16 := by rwa [Nat.mul_assoc, ← Nat.pow_succ']
    have hsmall : r.toNat * 2 < 2 ^ 16 := lt_of_le_of_lt (Nat.le_mul_of_pos_right _ (Nat.two_pow_pos n)) hdouble
    have htop : r.getLsbD 15 = false := Nat.testBit_lt_two_pow (by omega)
    have hshift : (r <<< 1).toNat = r.toNat * 2 := by
      rw [BitVec.toNat_shiftLeft, Nat.shiftLeft_eq, Nat.pow_one, Nat.mod_eq_of_lt hsmall]
    have hround : crcRound r = r <<< 1 := by
      rw [crcRound, htop, if_neg Bool.false_ne_true]
    rw [crcRounds, hround, ih (by rwa [hshift]), ← BitVec.shiftLeft_add, Nat.add_comm]

/-- Two byte steps are 16 rounds over the register with the word of both bytes in it: the second byte comes in below the
first, and 8 rounds bring it to the top. -/
theorem crcByte_crcByte (r : Half) (b c : Byte) :
    crcByte (crcByte r b) c = crcRounds 8 (crcRounds 8 (r ^^^ (b.setWidth 16 <<< 8 ||| c.setWidth 16))) := by
  have hlow : crcRounds 8 (c.setWidth 16) = c.setWidth 16 <<< 8 := by
    apply crcRounds_of_lt
    rw [BitVec.toNat_setWidth]
    omega
  have hword : b.setWidth 16 <<< 8 ||| c.setWidth 16 = b.setWidth 16 <<< 8 ^^^ c.setWidth 16 := by
    apply BitVec.eq_of_getLsbD_eq
    intro i hi
    rcases Nat.lt_or_ge i 8 with h | h
    · simp [h]
    · simp [BitVec.getLsbD_of_ge c i h]
  rw [crcByte, crcByte, ← hlow, ← crcRounds_xor, BitVec.xor_assoc, hword]

/-- The CRC tells apart two words of two bytes. -/
theorem eq_of_crcByte_crcByte_eq {r : Half} {b c b' c' : Byte}
    (h : crcByte (crcByte r b) c = crcByte (crcByte r b') c') :
    b = b' ∧ c = c' := by
  rw [crcByte_crcByte, crcByte_crcByte] at h
  have hword := (BitVec.xor_right_inj r).1 (crcRounds_injective (crcRounds_injective h))
  obtain ⟨hb, hc⟩ := (crcBytes_eq_iff b c _).1 hword
  obtain ⟨hb', hc'⟩ := (crcBytes_eq_iff b' c' _).1 rfl
  exact ⟨hb.trans hb'.symm, hc.trans hc'.symm⟩

/-- The CRC tells apart two sequences of the same length, at most two; one byte is told apart as with a zero byte after
it. -/
theorem eq_of_crc16_eq {r : Half} {x y : List Byte} (hlen : x.length = y.length) (hx : x.length ≤ 2)
    (h : crc16 r x = crc16 r y) : x = y := by
  match x, y, hlen, hx with
  | [], [], _, _ => rfl
  | [b], [b'], _, _ =>
    obtain ⟨rfl, -⟩ := eq_of_crcByte_crcByte_eq (congrArg (crcByte · 0#8) h)
    rfl
  | [b, c], [b', c'], _, _ =>
    obtain ⟨rfl, rfl⟩ := eq_of_crcByte_crcByte_eq h
    rfl

/-- Settles O25: what comes before gives both the same register, and what comes after keeps two registers apart. -/
theorem crcDetectsEveryTwoByteChange : Obligations.CrcDetectsEveryTwoByteChange := by
  intro init a x y c hlen hx hne heq
  simp only [crc16_append] at heq
  exact hne (eq_of_crc16_eq hlen hx (crc16_injective heq))

end Sys2Proof.Machine
end

section
/-! PROOFS. The validator, buffer by buffer (spec/41_validator.md R130 to R145): the verdict on each shape of buffer, in
the order of the checks, and on a buffer laid out as a frame's header, payload window, CRC bytes, end byte and tail;
from these the verdicts it can give, the buffers it accepts, and VALIDATE. -/

namespace Sys2Proof.Machine

open Sys2Proof.Safety

variable {P : Params} {m ident L hi lo e : Byte} {f p r t : List Byte}

/-! ### The checks in their order -/

theorem validate_of_short (h : f.length < 6) : validate P f = ⟨.schemaError, false, .start, none⟩ :=
  if_pos h

theorem validate_of_start (hr : 3 ≤ r.length) (hm : m ≠ P.marker) :
    validate P (m :: ident :: L :: r) = ⟨.schemaError, true, .start, none⟩ := by
  simp [validate, minFrameLen, hm, show ¬ r.length + 1 + 1 + 1 < 6 by omega]

theorem validate_of_identifier (hr : 3 ≤ r.length) :
    validate P (P.marker :: P.marker :: L :: r) = ⟨.schemaError, true, .identifier, none⟩ := by
  simp [validate, minFrameLen, show ¬ r.length + 1 + 1 + 1 < 6 by omega]

theorem validate_of_length (hr : 3 ≤ r.length) (hident : ident ≠ P.marker) (hlen : r.length < L.toNat + 3) :
    validate P (P.marker :: ident :: L :: r) = ⟨.lengthError, true, .length, none⟩ := by
  simp [validate, minFrameLen, declaredLen_cons, frameLen_eq, hident, show ¬ r.length + 1 + 1 + 1 < 6 by omega,
    show r.length + 1 + 1 + 1 < 6 + L.toNat by omega]

/-- The verdict on a buffer laid out as a frame and a tail: the checks after LENGTH decide (R136 to R138). -/
theorem validate_of_layout (hident : ident ≠ P.marker) (hp : p.length = L.toNat) :
    validate P (P.marker :: ident :: L :: (p ++ hi :: lo :: e :: t)) =
      if P.marker ∈ p then ⟨.lengthError, true, .payload, none⟩
      else if hi.setWidth 16 <<< 8 ||| lo.setWidth 16 ≠ crc16 crcInit p then
        ⟨.crcError, true, .crc, some (crc16 crcInit p)⟩
      else if e ≠ P.marker then ⟨.schemaError, true, .final, some (crc16 crcInit p)⟩
      else if P.strictTotalLength = true ∧ t ≠ [] then ⟨.lengthError, true, .complete, some (crc16 crcInit p)⟩
      else ⟨.valid, true, .complete, some (crc16 crcInit p)⟩ := by
  have hn : (P.marker :: ident :: L :: (p ++ hi :: lo :: e :: t)).length = frameLen L.toNat + t.length := by
    simp [frameLen_eq, hp]; omega
  have htail : frameLen L.toNat + t.length ≠ frameLen L.toNat ↔ t ≠ [] := by
    simp
  have hshort : ¬ frameLen L.toNat + t.length < minFrameLen := by simp only [frameLen_eq, minFrameLen]; omega
  have hcrcBytes : ¬ frameLen L.toNat + t.length - (hdrLen + L.toNat) < crcLen := by
    simp only [frameLen, crcLen]; omega
  simp only [validate, hn, declaredLen_cons, payloadOf_of_layout _ _ _ _ _ hp, receivedCrc_of_layout _ _ _ _ _ _ _ _ hp,
    endByte_of_layout _ _ _ _ _ _ _ _ hp, byteAt_cons_zero, byteAt_cons_succ, htail, if_neg hshort, if_neg hcrcBytes]
  rw [if_neg (by simp), if_neg hident, if_neg (by omega)]

/-- The value of the received CRC bytes, big-endian (R69, R137). -/
theorem toNat_crcBytes (hi lo : Byte) :
    (hi.setWidth 16 <<< 8 ||| lo.setWidth 16 : Half).toNat = 256 * hi.toNat + lo.toNat := by
  have hhi := hi.isLt
  simp only [BitVec.toNat_or, BitVec.toNat_shiftLeft, BitVec.toNat_setWidth]
  rw [Nat.mod_eq_of_lt (by omega), Nat.mod_eq_of_lt (by omega), Nat.mod_eq_of_lt (by omega),
    ← Nat.shiftLeft_add_eq_or_of_lt lo.isLt, Nat.shiftLeft_eq, Nat.mul_comm]

/-- Settles O26: the clauses are the verdicts on the shapes of a buffer, the CRC bytes compared by their values. -/
theorem validatorChecksInOrder : Obligations.ValidatorChecksInOrder := by
  refine fun P => ⟨fun s => validate_of_short, fun m ident L r hr => ⟨validate_of_start hr, ?_, ?_, ?_⟩⟩
  · rintro rfl rfl
    exact validate_of_identifier hr
  · rintro rfl hident hlen
    exact validate_of_length hr hident hlen
  · rintro p t hi lo e rfl hident hp rfl
    simp only [← toNat_crcBytes, ne_eq, BitVec.toNat_inj]
    exact validate_of_layout hident hp

/-- A list with three entries after its first `n`. -/
theorem exists_append_three {n : Nat} (h : n + 3 ≤ r.length) :
    ∃ p hi lo e t, r = p ++ hi :: lo :: e :: t ∧ p.length = n := by
  match hdrop : r.drop n with
  | hi :: lo :: e :: t =>
    exact ⟨r.take n, hi, lo, e, t, by rw [← hdrop, List.take_append_drop], List.length_take_of_le (by omega)⟩
  | [] | [_] | [_, _] =>
    have hlen := congrArg List.length hdrop
    simp at hlen
    omega

/-- A buffer fails the pre-check or one of the first three checks, or is laid out as a frame and a tail (R132 to
R135). -/
theorem validate_shape_cases (P : Params) (f : List Byte) :
    validate P f = ⟨.schemaError, false, .start, none⟩ ∨ validate P f = ⟨.schemaError, true, .start, none⟩ ∨
    validate P f = ⟨.schemaError, true, .identifier, none⟩ ∨ validate P f = ⟨.lengthError, true, .length, none⟩ ∨
    ∃ ident L p hi lo e t, f = P.marker :: ident :: L :: (p ++ hi :: lo :: e :: t) ∧ ident ≠ P.marker ∧
      p.length = L.toNat := by
  by_cases hshort : f.length < 6
  · exact .inl (validate_of_short hshort)
  obtain ⟨_, m, ident, L, r, rfl, hnil⟩ := exists_append_three (r := f) (n := 0) (by omega)
  rw [List.length_eq_zero_iff.1 hnil, List.nil_append] at hshort ⊢
  have hr : 3 ≤ r.length := by simp at hshort; omega
  by_cases hm : m = P.marker
  case neg => exact .inr (.inl (validate_of_start hr hm))
  subst hm
  by_cases hident : ident = P.marker
  case pos => exact .inr (.inr (.inl (by rw [hident, validate_of_identifier hr])))
  by_cases hlen : r.length < L.toNat + 3
  · exact .inr (.inr (.inr (.inl (validate_of_length hr hident hlen))))
  · obtain ⟨p, hi, lo, e, t, rfl, hp⟩ := exists_append_three (Nat.not_lt.1 hlen)
    exact .inr (.inr (.inr (.inr ⟨ident, L, p, hi, lo, e, t, rfl, hident, hp⟩)))

/-! ### The state machine -/

/-- What the rest of the run makes of one move of the state machine. -/
def FsmMove.finish (rest : ValidatorState → Option Half → Option ValidateResult) : FsmMove → Option ValidateResult
  | .advance q c => rest q c
  | .stop v => some v

@[simp] theorem finish_advance (rest : ValidatorState → Option Half → Option ValidateResult) (q : ValidatorState)
    (c : Option Half) : (FsmMove.advance q c).finish rest = rest q c := rfl

@[simp] theorem finish_stop (rest : ValidatorState → Option Half → Option ValidateResult) (v : ValidateResult) :
    (FsmMove.stop v).finish rest = some v := rfl

theorem fsmRun_succ (P : Params) (s : List Byte) (fuel : Nat) (q : ValidatorState) (c : Option Half) :
    fsmRun P s (fuel + 1) q c = (fsmTransition P s c q).finish (fsmRun P s fuel) := rfl

/-- Settles O28: unrolled, the seven transitions are the checks of `validate`, in the same order. -/
theorem stateMachineRefinesValidate : Obligations.StateMachineRefinesValidate := by
  intro P s
  simp only [validateByFsm, validate, fsmRun_succ, fsmTransition, apply_ite (FsmMove.finish _), apply_ite some,
    finish_advance, finish_stop]

/-! ### The verdicts it can give -/

/-- The verdicts, whichever way the total length is checked (R142). -/
theorem validate_verdict_or_strict (P : Params) (f : List Byte) :
    ((validate P f).ran = false ∧ (validate P f).outcome = .schemaError ∧ (validate P f).stop = .start) ∨
    ((validate P f).ran = true ∧ (((validate P f).outcome, (validate P f).stop) ∈ reachableVerdicts ∨
      (P.strictTotalLength = true ∧ ((validate P f).outcome, (validate P f).stop) = (.lengthError, .complete)))) := by
  rcases validate_shape_cases P f with h | h | h | h | ⟨ident, L, p, hi, lo, e, t, rfl, hident, hp⟩
  · exact .inl (by rw [h]; simp)
  · exact .inr (by rw [h]; simp [reachableVerdicts])
  · exact .inr (by rw [h]; simp [reachableVerdicts])
  · exact .inr (by rw [h]; simp [reachableVerdicts])
  · rw [validate_of_layout hident hp]
    split_ifs <;> simp [reachableVerdicts, *]

theorem exists_ne_marker (P : Params) : ∃ b : Byte, b ≠ P.marker :=
  ⟨P.marker + 1#8, by simp⟩

/-- The verdict on a buffer with an empty payload window, whose CRC is the initial value (R112). -/
theorem validate_of_emptyWindow (hident : ident ≠ P.marker) :
    validate P (P.marker :: ident :: 0#8 :: hi :: lo :: e :: t) =
      if hi.setWidth 16 <<< 8 ||| lo.setWidth 16 ≠ crcInit then ⟨.crcError, true, .crc, some crcInit⟩
      else if e ≠ P.marker then ⟨.schemaError, true, .final, some crcInit⟩
      else if P.strictTotalLength = true ∧ t ≠ [] then ⟨.lengthError, true, .complete, some crcInit⟩
      else ⟨.valid, true, .complete, some crcInit⟩ := by
  simpa using validate_of_layout (p := []) (L := 0#8) hident rfl

/-- Every listed verdict is some buffer's (R142). -/
theorem exists_buffer_of_verdict {o : ValidationOutcome} {q : ValidatorState} (h : (o, q) ∈ reachableVerdicts) :
    ∃ f, (validate P f).ran = true ∧ (validate P f).outcome = o ∧ (validate P f).stop = q := by
  obtain ⟨b, hb⟩ := exists_ne_marker P
  simp only [reachableVerdicts, List.mem_cons, Prod.mk.injEq, List.not_mem_nil, or_false] at h
  rcases h with ⟨rfl, rfl⟩ | ⟨rfl, rfl⟩ | ⟨rfl, rfl⟩ | ⟨rfl, rfl⟩ | ⟨rfl, rfl⟩ | ⟨rfl, rfl⟩ | ⟨rfl, rfl⟩
  · exact ⟨[b, b, 0#8, b, b, b], by simp [validate_of_start, hb]⟩
  · exact ⟨[P.marker, P.marker, 0#8, b, b, b], by simp [validate_of_identifier]⟩
  · exact ⟨[P.marker, b, 1#8, b, b, b], by simp [validate_of_length, hb]⟩
  · have hverdict := validate_of_layout (p := [P.marker]) (L := 1#8) (hi := b) (lo := b) (e := b) (t := []) hb rfl
    exact ⟨_, by rw [hverdict]; simp⟩
  · exact ⟨[P.marker, b, 0#8, 0#8, 0#8, b], by simp [validate_of_emptyWindow, hb, crcInit]⟩
  · exact ⟨[P.marker, b, 0#8, 0xFF#8, 0xFF#8, b], by simp [validate_of_emptyWindow, hb, crcInit]⟩
  · exact ⟨[P.marker, b, 0#8, 0xFF#8, 0xFF#8, P.marker], by simp [validate_of_emptyWindow, hb, crcInit]⟩

/-- A frame followed by one byte more, where the total length is checked strictly (R138). -/
theorem exists_buffer_of_strict_verdict (hstrict : P.strictTotalLength = true) :
    ∃ f, (validate P f).ran = true ∧ (validate P f).outcome = .lengthError ∧ (validate P f).stop = .complete := by
  obtain ⟨b, hb⟩ := exists_ne_marker P
  exact ⟨[P.marker, b, 0#8, 0xFF#8, 0xFF#8, P.marker, b], by simp [validate_of_emptyWindow, hb, hstrict, crcInit]⟩

/-- Settles O27: no other verdict by the checks' cases, and a buffer for each listed one. -/
theorem validatorVerdictsAreTheListedPairs : Obligations.ValidatorVerdictsAreTheListedPairs := by
  refine fun P o q => ⟨⟨?_, ?_⟩, ?_, ?_⟩
  · rintro ⟨s, hran, rfl, rfl⟩
    rcases validate_verdict_or_strict P s with ⟨hnot, -⟩ | ⟨-, hverdict⟩
    · rw [hran] at hnot
      cases hnot
    · exact hverdict
  · rintro (hlisted | ⟨hstrict, heq⟩)
    · exact exists_buffer_of_verdict hlisted
    · cases heq
      exact exists_buffer_of_strict_verdict hstrict
  · rintro ⟨s, hran, rfl, rfl⟩
    rcases validate_verdict_or_strict P s with ⟨-, houtcome, hstop⟩ | ⟨hrun, -⟩
    · rw [houtcome, hstop]
    · rw [hran] at hrun
      cases hrun
  · rintro ⟨⟩
    exact ⟨[], by simp [validate_of_short]⟩

/-! ### The buffers it accepts -/

/-- Which laid-out buffers are accepted (R145, R138). -/
theorem validate_valid_iff_of_layout (hident : ident ≠ P.marker) (hp : p.length = L.toNat) :
    (validate P (P.marker :: ident :: L :: (p ++ hi :: lo :: e :: t))).outcome = .valid ↔
      P.marker ∉ p ∧ (hi = crcHi (crc16 crcInit p) ∧ lo = crcLo (crc16 crcInit p)) ∧ e = P.marker ∧
        (P.strictTotalLength = true → t = []) := by
  rw [validate_of_layout hident hp, ← crcBytes_eq_iff]
  split_ifs <;> simp_all

/-- An accepted buffer is laid out as a frame and a tail (R133 to R135). -/
theorem layout_of_validate_valid (hvalid : (validate P f).outcome = .valid) :
    ∃ ident L p hi lo e t, f = P.marker :: ident :: L :: (p ++ hi :: lo :: e :: t) ∧ ident ≠ P.marker ∧
      p.length = L.toNat := by
  rcases validate_shape_cases P f with h | h | h | h | hlayout
  case inr.inr.inr.inr => exact hlayout
  all_goals rw [h] at hvalid; cases hvalid

/-- A frame with a tail, laid out. -/
theorem frame_append (P : Params) (ident : Byte) (p t : List Byte) :
    frame P ident p ++ t = P.marker :: ident :: BitVec.ofNat 8 p.length ::
      (p ++ crcHi (crc16 crcInit p) :: crcLo (crc16 crcInit p) :: P.marker :: t) := by
  simp [frame_eq]

/-- Settles O29: an accepted buffer is laid out as a frame and a tail, and there the checks are the frame's bytes. -/
theorem validBuffersAreFramesWithATail : Obligations.ValidBuffersAreFramesWithATail := by
  refine fun P s => ⟨fun h => ?_, ?_⟩
  · obtain ⟨ident, L, p, hi, lo, e, t, rfl, hident, hp⟩ := layout_of_validate_valid h
    obtain ⟨hpayload, ⟨rfl, rfl⟩, rfl, hstrict⟩ := (validate_valid_iff_of_layout hident hp).1 h
    have hL : L = BitVec.ofNat 8 p.length := by rw [hp, BitVec.ofNat_toNat, BitVec.setWidth_eq]
    exact ⟨ident, p, t, by rw [frame_append, hL], by omega, hpayload, hident, hstrict⟩
  · rintro ⟨ident, p, t, rfl, hp, hpayload, hident, hstrict⟩
    rw [frame_append]
    exact (validate_valid_iff_of_layout hident (toNat_lengthByte hp).symm).2 ⟨hpayload, ⟨rfl, rfl⟩, rfl, hstrict⟩

/-- Settles O32: the window is as long as declared and free of markers, and its CRC is not the one that was sent. -/
theorem corruptedPayloadGivesCrcError : Obligations.CorruptedPayloadGivesCrcError := by
  intro P ident a x y c hident hbound hlen hx hne hmarker
  have hlength : (a ++ y ++ c).length = (BitVec.ofNat 8 (a ++ x ++ c).length).toNat := by
    rw [toNat_lengthByte hbound]
    simp [hlen]
  have hcrc := crcDetectsEveryTwoByteChange crcInit a x y c hlen hx hne
  have hverdict := validate_of_layout (hi := crcHi (crc16 crcInit (a ++ x ++ c)))
    (lo := crcLo (crc16 crcInit (a ++ x ++ c))) (e := P.marker) (t := []) hident hlength
  rw [crcHi_crcLo, if_neg hmarker, if_pos hcrc] at hverdict
  exact hverdict

/-! ### The VALIDATE command -/

/-- What VALIDATE does is `validateCommand` with this hardware's parameters. -/
theorem exec_validate (len : Nat) (pabs : Bool) (s : State) :
    exec (.validate len pabs) s = .next (validateCommand Config.hw len pabs s) := rfl

theorem validateRefusesArgs_iff (P : Params) (len : Nat) (pabs : Bool) :
    validateRefusesArgs P len pabs = true ↔ pabs = true ∨ len > P.maxFrameLen := by
  simp [validateRefusesArgs]

/-- VALIDATE of a written input reports the validator's verdict on it, and draws nothing (R140). -/
theorem exec_validate_of_holds {s : State} {bs : List Byte} (hlen : bs.length ≤ Config.hw.maxFrameLen)
    (h : s.ibuf.holds 0 bs) :
    exec (.validate bs.length false) s =
      .next { s with
        crcVal := (validate Config.hw bs).crc.getD s.crcVal
        status := reportOfValidate (validate Config.hw bs) } := by
  have haccepted : ¬ validateRefusesArgs Config.hw bs.length false = true := by
    rw [validateRefusesArgs_iff]
    simpa using hlen
  rw [exec_validate, validateCommand, if_neg haccepted, inputSlice_of_holds h]

/-- The validator has computed a checksum exactly when it got past the CRC comparison or failed in it (R131). -/
theorem validate_crc_ne_none_iff (P : Params) (f : List Byte) :
    (validate P f).crc ≠ none ↔ ((validate P f).stop = .crc ∧ (validate P f).outcome = .crcError) ∨
      (validate P f).stop = .final ∨ (validate P f).stop = .complete := by
  rcases validate_shape_cases P f with h | h | h | h | ⟨ident, L, p, hi, lo, e, t, rfl, hident, hp⟩
  case inr.inr.inr.inr =>
    rw [validate_of_layout hident hp]
    split_ifs <;> simp
  all_goals rw [h]; simp

/-- Settles O30: the next state is `validateCommand`'s, written out; the example is the word of a VALIDATE over seven
written bytes, with a wrong CRC. -/
theorem validateClassifiesTheBuffer : Obligations.ValidateClassifiesTheBuffer := by
  refine ⟨fun len pabs s => ?_, validate_crc_ne_none_iff, fun s hs => ?_⟩
  · rcases validateCommand_cases Config.hw len pabs s with ⟨hrefused, h⟩ | ⟨haccepted, h⟩
    · rw [exec_validate, h, if_pos ((validateRefusesArgs_iff _ _ _).1 hrefused)]
      rfl
    · rw [← Bool.not_eq_true, validateRefusesArgs_iff] at haccepted
      rw [exec_validate, h, if_neg haccepted, inputSlice]
      dsimp only
      generalize validate Config.hw (s.ibuf.readRange 0 len s.draws).1 = r
      obtain ⟨o, ran, q, _ | c⟩ := r <;> rfl
  · have hdecode : decode 0x00070002#32 =
        .validate [0x7E#8, 0x01#8, 0x01#8, 0x01#8, 0x00#8, 0x00#8, 0x7E#8].length false := rfl
    have hverdict : validate Config.hw [0x7E#8, 0x01#8, 0x01#8, 0x01#8, 0x00#8, 0x00#8, 0x7E#8] =
        ⟨.crcError, true, .crc, some 0xF1D1#16⟩ := by decide
    have himage : (reportOfValidate ⟨.crcError, true, .crc, some 0xF1D1#16⟩).image = 0x000021C3#32 := by decide
    have hcrc : crcImage 0xF1D1#16 = 0x0000F1D1#32 := by decide
    have hnext := exec_validate_of_holds (by decide) hs
    rw [hverdict] at hnext
    rw [hdecode]
    exact ⟨_, hnext, himage, hcrc⟩

end Sys2Proof.Machine
end

section
/-! PROOFS. ENCODE (spec/42_encoder.md R160 to R166): the validator's verdict on a frame, what an accepted and a refused
ENCODE leave, and VALIDATE of the copied frame. -/

namespace Sys2Proof.Machine

open Sys2Proof.Safety

variable {P : Params} {ident : Byte} {f p : List Byte} {m m' : Memory} {s u : State} {n : Nat}

/-! ### The validator's verdict on a frame -/

/-- The encoder checks no marker, and in a frame the validator's other checks pass (R162). -/
theorem validate_frame (hident : ident ≠ P.marker) (hp : p.length ≤ 255) :
    validate P (frame P ident p) =
      if P.marker ∈ p then ⟨.lengthError, true, .payload, none⟩
      else ⟨.valid, true, .complete, some (crc16 crcInit p)⟩ := by
  rw [frame_eq, validate_of_layout hident (toNat_lengthByte hp).symm, crcHi_crcLo]
  simp

theorem validate_frame_of_marker (P : Params) (p : List Byte) :
    validate P (frame P P.marker p) = ⟨.schemaError, true, .identifier, none⟩ :=
  validate_of_identifier (by simp)

/-- Settles O35: the verdicts on a frame, by its identifier. -/
theorem encodedMarkersAreRejectedByTheValidator : Obligations.EncodedMarkersAreRejectedByTheValidator := by
  refine fun P ident p hp => ⟨?_, fun hident hmarker => ?_⟩
  · rintro rfl
    exact validate_frame_of_marker P p
  · rw [validate_frame hident hp, if_pos hmarker]

/-- A frame with a marker as identifier or in its payload is not VALID (R162). -/
theorem validate_frame_ne_valid (hp : p.length ≤ 255) (hmarker : ident = P.marker ∨ P.marker ∈ p) :
    (validate P (frame P ident p)).outcome ≠ .valid := by
  by_cases hident : ident = P.marker
  · simp [hident, validate_frame_of_marker]
  · simp [validate_frame hident hp, hmarker.resolve_left hident]

/-! ### The ENCODE command -/

/-- What ENCODE does is `encodeCommand` with this hardware's parameters. -/
theorem exec_encode (ident : Byte) (len : Nat) (pabs dabs : Bool) (s : State) :
    exec (.encode ident len pabs dabs) s = .next (encodeCommand Config.hw ident len pabs dabs s) := rfl

theorem encodeRefusesArgs_iff (P : Params) (len : Nat) (pabs dabs : Bool) :
    encodeRefusesArgs P len pabs dabs = true ↔
      dabs = true ∨ (len > 0 ∧ pabs = true) ∨ len > P.maxPayloadLen := by
  simp [encodeRefusesArgs, or_assoc]

/-- ENCODE of a payload too long for a frame is refused, and changes STATUS only (R161, R164). -/
theorem exec_encode_of_long (ident : Byte) (s : State) (hlong : Config.hw.maxPayloadLen < n) :
    exec (.encode ident n false false) s = .next (s.report 0x3#4 .unknownError) := by
  have hrefused := (encodeRefusesArgs_iff Config.hw n false false).2 (.inr (.inr hlong))
  rw [exec_encode, encodeCommand, if_pos hrefused]

/-- ENCODE of a written payload writes its frame, and draws nothing (R161, R165). -/
theorem exec_encode_of_holds (ident : Byte) (hp : p.length ≤ Config.hw.maxPayloadLen) (hs : s.ibuf.holds 0 p) :
    exec (.encode ident p.length false false) s =
      .next { s with
        obuf := encodeInto Config.hw s.obuf ident p
        obufLen := BitVec.ofNat 9 (frameLen p.length)
        crcVal := crc16 crcInit p
        status := reportOf 0x3#4 .valid } := by
  have haccepted : ¬ encodeRefusesArgs Config.hw p.length false false = true := by
    rw [encodeRefusesArgs_iff]
    simpa using hp
  rw [exec_encode, encodeCommand, if_neg haccepted, inputSlice_of_holds hs]

/-- Settles O33: the next state is `encodeCommand`'s, with OBUF byte by byte; the example is the word of an ENCODE with
an empty payload. -/
theorem encodeWritesTheFrame : Obligations.EncodeWritesTheFrame := by
  refine ⟨fun ident len pabs dabs s => ⟨encodeInto Config.hw s.obuf ident (inputSlice len s).1, ?_, fun i => ?_⟩,
    fun len hlen => ?_, fun s => ?_⟩
  · rw [exec_encode, ← frameLen_eq]
    rcases encodeCommand_cases Config.hw ident len pabs dabs s with ⟨hrefused, h⟩ | ⟨haccepted, h⟩
    · rw [h, if_pos ((encodeRefusesArgs_iff _ _ _ _).1 hrefused)]
      rfl
    · rw [← Bool.not_eq_true, encodeRefusesArgs_iff] at haccepted
      rw [h, if_neg haccepted]
      rfl
  · rw [read?_encodeInto, length_inputSlice, frameLen_eq, inputSlice]
  · rw [← frameLen_eq]
    exact toNat_frameLen hw_legal hlen
  · have hdecode : decode 0x00000203#32 = .encode 0x02#8 ([] : List Byte).length false false := rfl
    have hframe : frame Config.hw 0x02#8 [] = [0x7E#8, 0x02#8, 0x00#8, 0xFF#8, 0xFF#8, 0x7E#8] := by decide
    have hlen : obufLenImage (BitVec.ofNat 9 (frameLen 0)) = 6#32 := by decide
    have hcrc : crcImage (crc16 crcInit []) = 0x0000FFFF#32 := by decide
    have himage : (reportOf 0x3#4 .valid).image = 0x00003100#32 := by decide
    rw [hdecode, ← hframe]
    exact ⟨_, exec_encode_of_holds 0x02#8 (Nat.zero_le _) (Memory.holds_nil _ _), holds_encodeInto _ _ _ _, hlen, hcrc,
      himage⟩

/-! ### The round trip -/

/-- What a buffer that holds a frame has in the frame's length byte. -/
theorem lengthByte_of_holds_frame (h : m.holds 0 (frame P ident p)) :
    m.read? 2 = some (BitVec.ofNat 8 p.length) :=
  h 2 (by rw [length_frame, frameLen_eq]; omega)

/-- A buffer that holds a frame holds the payload behind the header (R90). -/
theorem payload_of_holds_frame (h : m.holds 0 (frame P ident p)) : m.holds 3 p := by
  intro j hj
  have hbyte := h (j + 3) (by rw [length_frame, frameLen_eq]; omega)
  rwa [frame_eq, List.getElem?_cons_succ, List.getElem?_cons_succ, List.getElem?_cons_succ,
    List.getElem?_append_left hj, Nat.zero_add, Nat.add_comm] at hbyte

/-- A copy of a buffer's first bytes holds what they are. -/
theorem Memory.holds_of_copy (h : m.holds 0 f) (hcopy : ∀ i, i < f.length → m'.read? i = m.read? i) :
    m'.holds 0 f := by
  intro j hj
  rw [Nat.zero_add, hcopy j hj, ← h j hj, Nat.zero_add]

/-- An accepted ENCODE of a written payload: OBUF holds its frame, of OBUF_LEN bytes (R161, R165). -/
theorem exists_encoded (ident : Byte) (hp : p.length ≤ Config.hw.maxPayloadLen) (hs : s.ibuf.holds 0 p) :
    ∃ t, exec (.encode ident p.length false false) s = .next t ∧ t.status = reportOf 0x3#4 .valid ∧
      t.crcVal = crc16 crcInit p ∧ t.obufLen.toNat = (frame Config.hw ident p).length ∧
      t.obuf.holds 0 (frame Config.hw ident p) :=
  ⟨_, exec_encode_of_holds ident hp hs, rfl, rfl, by rw [length_frame]; exact toNat_frameLen hw_legal hp,
    holds_encodeInto _ _ _ _⟩

/-- VALIDATE of a frame copied to IBUF reports the validator's verdict on the frame (R140, R166). -/
theorem exec_validate_of_copied_frame (hp : p.length ≤ Config.hw.maxPayloadLen)
    (hn : n = (frame Config.hw ident p).length) (hm : m.holds 0 (frame Config.hw ident p))
    (hcopy : ∀ i, i < n → u.ibuf.read? i = m.read? i) :
    exec (.validate n false) u =
      .next { u with
        crcVal := (validate Config.hw (frame Config.hw ident p)).crc.getD u.crcVal
        status := reportOfValidate (validate Config.hw (frame Config.hw ident p)) } := by
  subst hn
  have hfits : (frame Config.hw ident p).length ≤ Config.hw.maxFrameLen := by
    have := maxPayloadLen_fits Config.hw hw_legal.1
    rw [length_frame, frameLen_eq]
    omega
  exact exec_validate_of_holds hfits (Memory.holds_of_copy hm hcopy)

/-- Settles O34: OBUF holds the frame after ENCODE, so IBUF does after the copy, and VALIDATE reports its verdict. -/
theorem encodedFramesValidate : Obligations.EncodedFramesValidate := by
  refine ⟨fun ident p s hframable hs => ?_, fun ident p s hp hs hmarker => ?_, fun ident len s hlong => ?_⟩
  · obtain ⟨hident, hpayload, hp⟩ := hframable
    have hbyte := hp.trans (maxPayloadLen_le _)
    obtain ⟨t, hexec, -, hcrc, hlen, hobuf⟩ := exists_encoded ident hp hs
    refine ⟨t, hexec, by rw [hlen, length_frame, frameLen_eq], lengthByte_of_holds_frame hobuf, toNat_lengthByte hbyte,
      payload_of_holds_frame hobuf, fun u hcopy => ?_⟩
    rw [exec_validate_of_copied_frame hp hlen hobuf hcopy, validate_frame hident hbyte, if_neg hpayload, hcrc]
    rfl
  · obtain ⟨t, hexec, hstatus, -, hlen, hobuf⟩ := exists_encoded ident hp hs
    refine ⟨t, hexec, by rw [hstatus, reportOf_outcome], fun u hcopy =>
      ⟨_, exec_validate_of_copied_frame hp hlen hobuf hcopy, ?_⟩⟩
    exact validate_frame_ne_valid (hp.trans (maxPayloadLen_le _)) hmarker
  · exact ⟨_, exec_encode_of_long ident s hlong, rfl⟩

end Sys2Proof.Machine
end

section
/-! PROOFS. The frame synchroniser's commands (spec/43_framer.md R181 to R191): what one push does in each of its cases,
FACK and FCLEAR on the word of FR_STATUS, and the receive port. -/

namespace Sys2Proof.Machine

open Sys2Proof.Safety

variable {P : Params} {s : State} {b : Byte} {f : List Byte} {m : Memory}

/-- What FPUSH does is `push` with this hardware's parameters. -/
theorem exec_fpush (b : Byte) (s : State) : exec (.fpush b) s = .next (push Config.hw b s) := rfl

/-! ### A push that is no trigger -/

/-- A push that is no trigger appends its byte, and overflows where that fills the buffer (R181, R186). -/
theorem push_of_not_trigger (h : triggers P b (s.fr.flen.toNat + 1) = false) :
    push P b s =
      { appended b s with
        fr := if s.fr.flen.toNat + 1 = P.maxFrameLen then s.fr.failed .lengthError
          else s.fr.accumulated (s.fr.flen.toNat + 1) } := by
  rcases push_cases P b s with ⟨ht, -⟩ | ⟨-, hn, hp⟩ | ⟨-, hn, hp⟩
  · rw [h] at ht; cases ht
  · rw [hp, if_pos hn]
  · rw [hp, if_neg hn]

/-- Settles O37: the push is `push_of_not_trigger`'s, and FBUF is written at FLEN only. -/
theorem fpushAccumulatesOrOverflows : Obligations.FpushAccumulatesOrOverflows := by
  intro b s hb
  have ht : triggers Config.hw b (s.fr.flen.toNat + 1) = false :=
    (triggers_eq_false _ _ _).2 fun hm => Nat.not_le.1 fun hn => hb ⟨hm, hn⟩
  refine ⟨s.fbuf.write s.fr.flen.toNat b, ?_, fun i => Memory.read?_write _ _ _ _⟩
  rw [exec_fpush, push_of_not_trigger ht]
  rfl

/-! ### A push that is a trigger -/

/-- A marker byte that brings the accumulation to at least six bytes is a trigger (R183). -/
theorem push_marker_of_long (h : 5 ≤ s.fr.flen.toNat) :
    push P P.marker s = trigger P (s.fr.flen.toNat + 1) (appended P.marker s) := by
  have ht := (triggers_iff P P.marker (s.fr.flen.toNat + 1)).2 ⟨rfl, by omega⟩
  rcases push_cases P P.marker s with ⟨-, hp⟩ | ⟨hf, -⟩ | ⟨hf, -⟩
  · exact hp
  · rw [ht] at hf; cases hf
  · rw [ht] at hf; cases hf

theorem Memory.holds_write_append (b : Byte) (h : m.holds 0 f) : (m.write f.length b).holds 0 (f ++ [b]) := by
  refine Memory.holds_append (fun j hj => ?_) fun j hj => ?_
  · rw [Memory.read?_write_other _ _ (by omega)]
    exact h j hj
  · obtain rfl : j = 0 := by simpa using hj
    rw [Nat.zero_add, Nat.add_zero, Memory.read?_write_same]
    rfl

/-- A trigger on written bytes delivers the frame or fails with the validator's outcome, and draws nothing (R184,
R185). -/
theorem trigger_of_holds (h : s.fbuf.holds 0 f) :
    trigger P f.length s =
      if (validate P f).outcome = .valid then deliver f s
      else { s with fr := s.fr.failed (validate P f).outcome } := by
  unfold trigger
  rw [Memory.readRange_of_holds f s.fbuf 0 s.draws h]
  rfl

/-- The push of a trigger, where the accumulation `f` was written: the validator classifies `f` with the marker
appended (R181). -/
theorem push_trigger_of_holds (hlen : f.length = s.fr.flen.toNat) (hf : 5 ≤ f.length) (h : s.fbuf.holds 0 f) :
    push P P.marker s =
      if (validate P (f ++ [P.marker])).outcome = .valid then deliver (f ++ [P.marker]) (appended P.marker s)
      else { appended P.marker s with fr := s.fr.failed (validate P (f ++ [P.marker])).outcome } := by
  have hheld : (appended P.marker s).fbuf.holds 0 (f ++ [P.marker]) := by
    rw [appended, ← hlen]
    exact Memory.holds_write_append P.marker h
  have htrigger := trigger_of_holds (P := P) hheld
  rw [List.length_append, hlen] at htrigger
  rw [push_marker_of_long (hlen ▸ hf)]
  exact htrigger

/-- A byte of the payload window, by its offset in the buffer (R17). -/
theorem getElem?_payloadOf {i : Nat} (h : i < declaredLen f) : (payloadOf f)[i]? = f[3 + i]? := by
  rw [payloadOf, List.getElem?_take_of_lt h, List.getElem?_drop, hdrLen]

/-- Settles O38: the push is `push_trigger_of_holds`'s, and RXP is overwritten by a payload of the declared length. -/
theorem fpushTriggerValidatesTheAccumulation : Obligations.FpushTriggerValidatesTheAccumulation := by
  intro f s hlen hf hheld
  refine ⟨s.fbuf.write s.fr.flen.toNat Config.hw.marker,
    s.rxp.writeBytes 0 (payloadOf (f ++ [Config.hw.marker])), ?_, fun i => Memory.read?_write _ _ _ _, fun hv i => ?_⟩
  · rw [exec_fpush, push_trigger_of_holds hlen hf hheld]
    rfl
  · obtain ⟨-, hfits, -⟩ := header_of_validate_valid hv
    have hdeclared : declaredLen (f ++ [Config.hw.marker]) = (byteAt (f ++ [Config.hw.marker]) 2).toNat := rfl
    rw [Memory.read?_writeBytes, length_payloadOf hfits, hdeclared]
    by_cases hi : i < (byteAt (f ++ [Config.hw.marker]) 2).toNat
    · rw [if_pos ⟨Nat.zero_le _, by omega⟩, if_pos hi, Nat.sub_zero, getElem?_payloadOf hi]
    · rw [if_neg (by omega), if_neg hi]

/-- A buffer of at least six bytes that does not start with the marker fails the first check (R133). -/
theorem validate_of_first_byte {g : Byte} (hf : 6 ≤ f.length) (h0 : f[0]? = some g) (hg : g ≠ P.marker) :
    validate P f = ⟨.schemaError, true, .start, none⟩ := by
  obtain ⟨_, m, ident, L, r, rfl, hnil⟩ := exists_append_three (r := f) (n := 0) (by omega)
  rw [List.length_eq_zero_iff.1 hnil, List.nil_append] at hf h0 ⊢
  obtain rfl : m = g := Option.some.inj h0
  exact validate_of_start (by simp at hf; omega) hg

/-- Settles O44: the candidate starts with the first accumulated byte, whatever the rest of it reads as. -/
theorem garbageBeforeAFrameIsNotSkipped : Obligations.GarbageBeforeAFrameIsNotSkipped := by
  intro g s hlen hread hg
  have hfirst : (candidate (s.fr.flen.toNat + 1) (appended Config.hw.marker s))[0]? = some g := by
    refine Memory.getElem?_readRange_of_some _ _ _ _ (Nat.succ_pos _) ?_
    rw [appended, Memory.read?_write_other _ _ (by omega)]
    exact hread
  have hverdict := validate_of_first_byte (by rw [length_candidate]; omega) hfirst hg
  refine ⟨_, exec_fpush _ s, ?_⟩
  rw [push_marker_of_long hlen]
  rcases trigger_cases Config.hw (s.fr.flen.toNat + 1) (appended Config.hw.marker s) with ⟨hv, -⟩ | ⟨-, ht⟩
  · rw [hverdict] at hv; cases hv
  · rw [ht, hverdict]
    exact ⟨rfl, rfl, rfl⟩

/-! ### FACK and FCLEAR on the word of FR_STATUS -/

/-- Masking the word of FR_STATUS in FLEN, the three flags and RESULT masks these fields (R26). -/
theorem frStatusImage_and (f : FrStatusReg) (flen : Len9) (flags : Bool) (result : BitVec 2) :
    f.image &&& (BitVec.allOnes 7 ++ flen ++ BitVec.allOnes 5 ++ BitVec.ofBool flags ++ BitVec.ofBool flags ++
        BitVec.ofBool flags ++ BitVec.allOnes 1 ++ BitVec.allOnes 3 ++ BitVec.allOnes 2 ++ result) =
      0#7 ++ (f.flen &&& flen) ++ 0#5 ++ BitVec.ofBool (f.ferr && flags) ++ BitVec.ofBool (f.overrun && flags) ++
        BitVec.ofBool (f.favail && flags) ++ 0#1 ++ f.foutcome.code ++ 0#2 ++ (f.result.code &&& result) := by
  unfold FrStatusReg.image
  -- `BitVec.and_append` applies only where the width stands as the sum of the fields' widths.
  change (_ : BitVec (7 + 9 + 5 + 1 + 1 + 1 + 1 + 3 + 2 + 2)) &&& _ = _
  simp only [BitVec.and_append, BitVec.ofBool_and_ofBool, BitVec.and_allOnes]

/-- FACK clears bits [10:8] of the word (R188). -/
theorem image_acknowledged (f : FrStatusReg) : f.acknowledged.image = f.image &&& 0xFFFFF8FF#32 := by
  have hmasked := frStatusImage_and f (BitVec.allOnes 9) false (BitVec.allOnes 2)
  simp only [Bool.and_false, BitVec.and_allOnes] at hmasked
  exact hmasked.symm

/-- FCLEAR clears bits [24:16] and [1:0] of the word (R189). -/
theorem image_cleared (f : FrStatusReg) : f.cleared.image = f.image &&& 0xFE00FFFC#32 := by
  have hmasked := frStatusImage_and f 0#9 true 0#2
  simp only [Bool.and_true, BitVec.and_zero] at hmasked
  exact hmasked.symm

/-- Settles O41: the word is masked as `image_acknowledged` says, and so is the example's. -/
theorem fackClearsTheStickyFlags : Obligations.FackClearsTheStickyFlags := by
  refine ⟨fun s => ⟨_, rfl, image_acknowledged s.fr, rfl, rfl, rfl, rfl, rfl, rfl⟩, fun s hs => ⟨_, rfl, ?_⟩⟩
  rw [image_acknowledged, hs]
  rfl

/-- Settles O42: the word is masked as `image_cleared` says, and so is the example's. -/
theorem fclearDiscardsTheAccumulation : Obligations.FclearDiscardsTheAccumulation := by
  refine ⟨fun s => ⟨_, rfl, image_cleared s.fr, rfl, rfl, rfl, rfl, rfl, rfl⟩, fun s hs => ⟨_, rfl, ?_⟩⟩
  rw [image_cleared, hs]
  rfl

/-- Settles O43: a push leaves the command unit as `push_frame` says, and FCLEAR and FACK write FR_STATUS only. -/
theorem synchroniserCommandsLeaveTheCommandUnit : Obligations.SynchroniserCommandsLeaveTheCommandUnit := by
  intro i s hi
  obtain ⟨t, ht, -⟩ := exec_answers_next i s
  refine ⟨t, ht, ?_⟩
  rcases exec_synchroniser ht with ⟨b, -, rfl⟩ | ⟨-, rfl⟩ | ⟨-, rfl⟩ | ⟨hu, -⟩
  · obtain ⟨hstatus, hcrc, hlen, hibuf, hobuf, -⟩ := push_frame Config.hw b s
    exact ⟨hstatus, hcrc, hlen, hibuf, hobuf⟩
  · exact ⟨rfl, rfl, rfl, rfl, rfl⟩
  · exact ⟨rfl, rfl, rfl, rfl, rfl⟩
  · rw [hi] at hu; cases hu

/-! ### The receive port -/

/-- Neither a trigger nor a push looks at the steps still to come. -/
theorem trigger_inputs (P : Params) (n : Nat) (s : State) (is : List Event) :
    trigger P n { s with inputs := is } = { trigger P n s with inputs := is } := by
  unfold trigger
  dsimp only
  split_ifs <;> rfl

theorem push_inputs (P : Params) (b : Byte) (s : State) (is : List Event) :
    push P b { s with inputs := is } = { push P b s with inputs := is } := by
  unfold push
  dsimp only
  split_ifs
  · exact trigger_inputs P _ (appended b s) is
  · rfl
  · rfl

/-- A byte on the receive port is one push (R182). -/
theorem step_portByte (b : Byte) (s : State) (rest : List Event) :
    step { s with inputs := .portByte b :: rest } = .next { push Config.hw b s with inputs := rest } :=
  congrArg Host.Outcome.next (push_inputs Config.hw b s rest)

theorem run_succ {s t : State} (h : step s = .next t) (k : Nat) : core.run (k + 1) s = core.run k t := by
  have hstep : core.step s = .next t := h
  simp only [Host.Core.run, hstep]

/-- Settles O40, by induction on the stream: the first byte's step is one push. -/
theorem portBytesArePushedInOrder : Obligations.PortBytesArePushedInOrder := by
  refine ⟨fun b s rest => rfl, fun bs s rest => ?_⟩
  induction bs generalizing s with
  | nil => rfl
  | cons b bs ih =>
    have hstep := step_portByte b s (bs.map Event.portByte ++ rest)
    exact (run_succ hstep bs.length).trans (ih (push Config.hw b s))

end Sys2Proof.Machine
end

section
/-! PROOFS. A trigger validates exactly one frame (spec/43_framer.md R193). -/

namespace Sys2Proof.Machine

open Sys2Proof.Safety

variable {P : Params} {s : State} {b : Byte} {f : List Byte}

/-- Where a buffer with an end marker in its place has exactly the declared length, the strict check decides nothing
(R138). -/
theorem validate_strict_congr (strict : Bool)
    (h : frameLen (declaredLen f) ≤ f.length → byteAt f (hdrLen + declaredLen f + crcLen) = P.marker →
      f.length = frameLen (declaredLen f)) :
    validate { P with strictTotalLength := strict } f = validate P f := by
  unfold validate
  dsimp only
  by_cases hfits : frameLen (declaredLen f) > f.length
  · simp only [if_pos hfits]
  · by_cases hend : byteAt f (hdrLen + declaredLen f + crcLen) = P.marker
    · have hexact := h (Nat.not_lt.1 hfits) hend
      simp only [hexact, ne_eq, not_true_eq_false, and_false]
    · simp only [ne_eq, hend, not_false_eq_true, if_true]

/-- An accepted buffer has the end marker in its place (R138). -/
theorem endByte_of_validate_valid (h : (validate P f).outcome = .valid) :
    byteAt f (hdrLen + declaredLen f + crcLen) = P.marker := by
  obtain ⟨ident, L, p, hi, lo, e, t, rfl, hident, hp⟩ := layout_of_validate_valid h
  obtain ⟨-, -, rfl, -⟩ := (validate_valid_iff_of_layout hident hp).1 h
  rw [declaredLen_cons, endByte_of_layout _ _ _ _ _ _ _ _ hp]

/-- In a good state no accumulated byte at offset 5 or later is a marker. -/
theorem byteAt_ne_marker_of_inv (hinv : SynchroniserInv P s) (hlen : f.length = s.fr.flen.toNat)
    (hheld : s.fbuf.holds 0 f) {i : Nat} (hi : 5 ≤ i) (hlt : i < f.length) : byteAt f i ≠ P.marker := by
  have hread := hheld i hlt
  rw [Nat.zero_add, List.getElem?_eq_getElem hlt] at hread
  have hbyte : byteAt f i = f[i] := List.getD_eq_getElem f 0#8 hlt
  intro hm
  exact hinv.noLateMarker i hi (hlen ▸ hlt) (by rw [hread, ← hbyte, hm])

/-- So an end marker in its place is the byte pushed last, and the buffer has exactly the declared length (R193). -/
theorem length_of_endByte (hinv : SynchroniserInv P s) (hlen : f.length = s.fr.flen.toNat) (hheld : s.fbuf.holds 0 f)
    (hfits : frameLen (declaredLen (f ++ [b])) ≤ (f ++ [b]).length)
    (hend : byteAt (f ++ [b]) (hdrLen + declaredLen (f ++ [b]) + crcLen) = P.marker) :
    (f ++ [b]).length = frameLen (declaredLen (f ++ [b])) := by
  generalize declaredLen (f ++ [b]) = L at *
  rw [frameLen_eq, List.length_append, List.length_singleton] at *
  by_contra hne
  have hlt : hdrLen + L + crcLen < f.length := by simp only [hdrLen, crcLen]; omega
  refine byteAt_ne_marker_of_inv hinv hlen hheld (by simp only [hdrLen, crcLen]; omega) hlt ?_
  rw [← hend, byteAt, byteAt, List.getD_append _ _ _ _ hlt]

/-- Settles O45: the strict check and the exact length by `length_of_endByte`, the last clause for every buffer. -/
theorem triggersValidateExactlyOneFrame : Obligations.TriggersValidateExactlyOneFrame := by
  intro P s f strict hinv hlen _ hheld
  have hexact := length_of_endByte (b := P.marker) hinv hlen hheld
  refine ⟨fun hv => ?_, validate_strict_congr strict hexact, validate_outcome_ne_unknownError _ _⟩
  obtain ⟨-, hfits, -⟩ := header_of_validate_valid hv
  rw [← frameLen_eq]
  exact hexact hfits (endByte_of_validate_valid hv)

end Sys2Proof.Machine
end

section
/-! PROOFS. Streams of bytes pushed into the frame synchroniser (spec/43_framer.md R187, R192, R195): bytes that only
accumulate, the marker that ends them, and from these a frame that is delivered and a frame that is lost. -/

namespace Sys2Proof.Machine

open Sys2Proof.Safety

variable {P : Params} {s : State} {ident : Byte} {bs p q r : List Byte} {n : Nat}

/-! ### Bytes that only accumulate -/

/-- Bytes with no marker at offset 5 or later and room to spare are appended one by one (R181, R183). The offset counts
from the accumulation's first byte, so the first `5 - n` bytes may be markers. -/
theorem pushAll_of_no_late_marker (hP : P.legal) (hs : s.fr.flen.toNat = n) (hbs : P.marker ∉ bs.drop (5 - n))
    (hfits : n + bs.length < P.maxFrameLen) :
    pushAll P bs s =
      { s with
        fbuf := s.fbuf.writeBytes n bs
        fr := if bs = [] then s.fr else s.fr.accumulated (n + bs.length) } := by
  induction bs generalizing s n with
  | nil => rfl
  | cons b bs ih =>
    obtain ⟨hb, hrest⟩ : (5 ≤ n → b ≠ P.marker) ∧ P.marker ∉ bs.drop (5 - (n + 1)) := by
      rcases Nat.lt_or_ge n 5 with h | h
      · rw [show 5 - n = 5 - (n + 1) + 1 by omega] at hbs
        exact ⟨fun h5 => by omega, hbs⟩
      · rw [show 5 - n = 0 by omega, List.drop_zero, List.mem_cons, not_or] at hbs
        rw [show 5 - (n + 1) = 0 by omega]
        exact ⟨fun _ => Ne.symm hbs.1, hbs.2⟩
    rw [List.length_cons] at hfits
    have hquiet : triggers P b (s.fr.flen.toNat + 1) = false :=
      (triggers_eq_false _ _ _).2 fun hm => by
        by_contra hn
        exact hb (by omega) hm
    rw [pushAll_cons, push_of_not_trigger hquiet, hs, if_neg (by omega),
      ih (n := n + 1) (by rw [accumulated_flen, toNat_len9 hP (by omega)]) hrest (by omega)]
    subst hs
    cases bs with
    | nil => rfl
    | cons c bs =>
      rw [Nat.add_assoc, Nat.add_comm 1, ← List.length_cons]
      rfl

/-- Bytes that from an empty accumulation only accumulate, and that a marker after them would turn into a candidate
(R183, R186). -/
structure Accumulates (P : Params) (q : List Byte) : Prop where
  long : 5 ≤ q.length
  noLateMarker : P.marker ∉ q.drop 5
  fits : q.length < P.maxFrameLen

theorem Accumulates.ne_nil (hq : Accumulates P q) : q ≠ [] :=
  List.ne_nil_of_length_pos (Nat.lt_of_lt_of_le (by decide) hq.long)

/-- While they are pushed, every push is PENDING. -/
theorem result_pushAll_take (hP : P.legal) (hs : s.fr.flen = 0#9) (hq : Accumulates P q) (hn : 0 < n) :
    (pushAll P (q.take n) s).fr.result = .pending := by
  have hne := hq.ne_nil
  obtain ⟨-, hmarker, hfits⟩ := hq
  have htake : P.marker ∉ (q.take n).drop (5 - 0) := by
    rw [Nat.sub_zero, List.drop_take]
    exact fun h => hmarker (List.mem_of_mem_take h)
  have hlen : 0 + (q.take n).length < P.maxFrameLen := by
    rw [List.length_take]
    omega
  have hnil : q.take n ≠ [] := by
    rw [Ne, List.take_eq_nil_iff, not_or]
    exact ⟨by omega, hne⟩
  rw [pushAll_of_no_late_marker hP (by rw [hs]; rfl) htake hlen, if_neg hnil]
  rfl

theorem Memory.writeBytes_append (m : Memory) (i : Nat) (as bs : List Byte) :
    m.writeBytes i (as ++ bs) = (m.writeBytes i as).writeBytes (i + as.length) bs := by
  induction as generalizing m i with
  | nil => rfl
  | cons a as ih => simp [Memory.writeBytes, ih, Nat.add_assoc, Nat.add_comm 1]

/-- A marker after them is a trigger, on exactly these bytes and the marker (R181). -/
theorem pushAll_append_marker (hP : P.legal) (hs : s.fr.flen = 0#9) (hq : Accumulates P q) :
    pushAll P (q ++ [P.marker]) s =
      if (validate P (q ++ [P.marker])).outcome = .valid then
        { deliver (q ++ [P.marker]) s with fbuf := s.fbuf.writeBytes 0 (q ++ [P.marker]) }
      else
        { s with
          fbuf := s.fbuf.writeBytes 0 (q ++ [P.marker])
          fr := s.fr.failed (validate P (q ++ [P.marker])).outcome } := by
  have hne := hq.ne_nil
  obtain ⟨hlen, hmarker, hfits⟩ := hq
  have hflen : q.length = (BitVec.ofNat 9 (0 + q.length)).toNat := by rw [Nat.zero_add, toNat_len9 hP (by omega)]
  rw [pushAll_append, pushAll_of_no_late_marker hP (n := 0) (by rw [hs]; rfl) hmarker (by omega), if_neg hne,
    pushAll_cons, pushAll_nil, push_trigger_of_holds hflen hlen (Memory.holds_writeBytes _ _ _), appended,
    accumulated_flen, ← hflen, Memory.writeBytes_append, Nat.zero_add]
  rfl

/-! ### A frame that is delivered -/

/-- A frame without its end marker. -/
def frameHead (P : Params) (ident : Byte) (p : List Byte) : List Byte :=
  P.marker :: ident :: BitVec.ofNat 8 p.length :: (p ++ [crcHi (crc16 crcInit p), crcLo (crc16 crcInit p)])

theorem frame_eq_frameHead (P : Params) (ident : Byte) (p : List Byte) :
    frame P ident p = frameHead P ident p ++ [P.marker] := by
  simp [frame_eq, frameHead]

@[simp] theorem length_frameHead (P : Params) (ident : Byte) (p : List Byte) :
    (frameHead P ident p).length = 5 + p.length := by
  simp [frameHead]
  omega

/-- Of the bytes at offset 5 or later only CRC bytes can be markers: the low byte unless the payload is empty, the high
byte where it has two bytes or more (R192). -/
theorem marker_mem_drop_frameHead (hp : P.marker ∉ p) :
    P.marker ∈ (frameHead P ident p).drop 5 ↔ crcTriggers P p := by
  unfold crcTriggers frameHead
  match p with
  | [] => simp
  | [x] => simp [eq_comm]
  | x :: y :: p => simp_all [eq_comm]

theorem length_frameHead_lt (hP : P.legal) (hf : Framable P ident p) :
    (frameHead P ident p).length < P.maxFrameLen := by
  have hfits := maxPayloadLen_fits P hP.1
  have hbound := hf.bound
  rw [length_frameHead]
  omega

theorem accumulates_frameHead (hP : P.legal) (hf : Framable P ident p) (hc : ¬ crcTriggers P p) :
    Accumulates P (frameHead P ident p) where
  long := by rw [length_frameHead]; omega
  noLateMarker := mt (marker_mem_drop_frameHead hf.payload).1 hc
  fits := length_frameHead_lt hP hf

/-- The state after a frame none of whose CRC bytes is a trigger, whatever it was before: one FRAME result (R184,
R192). -/
theorem pushAll_frame (hP : P.legal) (hf : Framable P ident p) (hc : ¬ crcTriggers P p) (hs : s.fr.flen = 0#9) :
    pushAll P (frame P ident p) s =
      { s with
        fbuf := s.fbuf.writeBytes 0 (frame P ident p)
        rxp := s.rxp.writeBytes 0 p
        rxpInfo := ⟨BitVec.ofNat 8 p.length, ident⟩
        fr := s.fr.delivered } := by
  have hbyte := hf.bound.trans (maxPayloadLen_le P)
  have hv : (validate P (frame P ident p)).outcome = .valid := by
    rw [validate_frame hf.ident hbyte, if_neg hf.payload]
  have hpayload : payloadOf (frame P ident p) = p := payloadOf_of_layout _ _ _ _ _ (toNat_lengthByte hbyte).symm
  have hpush := pushAll_append_marker hP hs (accumulates_frameHead hP hf hc)
  rw [← frame_eq_frameHead, if_pos hv, deliver, hpayload] at hpush
  exact hpush

/-- Up to its end marker every push of such a frame is PENDING. -/
theorem result_pushAll_take_frame (hP : P.legal) (hf : Framable P ident p) (hc : ¬ crcTriggers P p)
    (hs : s.fr.flen = 0#9) (hn : 0 < n) (hlt : n < 6 + p.length) :
    (pushAll P ((frame P ident p).take n) s).fr.result = .pending := by
  rw [frame_eq_frameHead, List.take_append_of_le_length (by rw [length_frameHead]; omega)]
  exact result_pushAll_take hP hs (accumulates_frameHead hP hf hc) hn

/-! ### A frame that is lost -/

/-- A frame cut before its end declares more bytes than there are (R135). -/
theorem validate_of_cut_frame {w : List Byte} (hf : Framable P ident p) (hw : 3 ≤ w.length)
    (hcut : w.length < p.length + 3) :
    (validate P (P.marker :: ident :: BitVec.ofNat 8 p.length :: w)).outcome = .lengthError := by
  have hL := toNat_lengthByte (hf.bound.trans (maxPayloadLen_le P))
  rw [validate_of_length hw hf.ident (by rwa [hL])]

/-- A frame with a CRC byte that is a trigger: up to that byte it is a candidate shorter than it declares, and one or two
bytes are left (R135, R192). -/
theorem exists_lost_prefix (hP : P.legal) (hf : Framable P ident p) (hc : crcTriggers P p) :
    ∃ q r, frame P ident p = q ++ P.marker :: r ∧ Accumulates P q ∧
      r.length = (if 2 ≤ p.length ∧ crcHi (crc16 crcInit p) = P.marker then 2 else 1) ∧
      (validate P (q ++ [P.marker])).outcome = .lengthError := by
  have hhead := length_frameHead_lt hP hf
  rw [length_frameHead] at hhead
  by_cases hhi : 2 ≤ p.length ∧ crcHi (crc16 crcInit p) = P.marker
  · obtain ⟨hlen, hmarker⟩ := hhi
    refine ⟨P.marker :: ident :: BitVec.ofNat 8 p.length :: p, [crcLo (crc16 crcInit p), P.marker], ?_, ⟨?_, ?_, ?_⟩, ?_,
      validate_of_cut_frame (w := p ++ [P.marker]) hf (by simpa using hlen) (by simp)⟩
    · rw [frame_eq, hmarker]
      rfl
    · simpa using hlen
    · exact fun h => hf.payload (List.mem_of_mem_drop (i := 2) h)
    · simp only [List.length_cons]
      omega
    · rw [if_pos ⟨hlen, hmarker⟩]
      rfl
  · obtain ⟨hlen, hmarker⟩ := hc.resolve_left hhi
    refine ⟨P.marker :: ident :: BitVec.ofNat 8 p.length :: (p ++ [crcHi (crc16 crcInit p)]), [P.marker], ?_,
      ⟨?_, ?_, ?_⟩, ?_,
      validate_of_cut_frame (w := p ++ [crcHi (crc16 crcInit p)] ++ [P.marker]) hf (by simpa using hlen) (by simp)⟩
    · rw [frame_eq, hmarker]
      simp
    · simpa using hlen
    · have hpayload := hf.payload
      match p with
      | [x] => simp
      | x :: y :: p =>
        have hne : P.marker ≠ crcHi (crc16 crcInit (x :: y :: p)) := fun h => hhi ⟨by simp, h.symm⟩
        simp only [List.mem_cons, not_or] at hpayload
        simpa [hpayload] using hne
    · simp only [List.length_cons, List.length_append, List.length_nil]
      omega
    · rw [if_neg hhi]
      rfl

/-- The state after such a candidate and at most two more bytes: an ERROR result, and the bytes start a new accumulation
(R185, R192). -/
theorem pushAll_lost (hP : P.legal) (hs : s.fr.flen = 0#9) (hq : Accumulates P q)
    (hv : (validate P (q ++ [P.marker])).outcome = .lengthError) (hr : r.length ≤ 2) :
    pushAll P (q ++ P.marker :: r) s =
      { s with
        fbuf := (s.fbuf.writeBytes 0 (q ++ [P.marker])).writeBytes 0 r
        fr := if r = [] then s.fr.failed .lengthError else (s.fr.failed .lengthError).accumulated r.length } := by
  have hsix := hP.1
  have hquiet : P.marker ∉ r.drop (5 - 0) := by
    rw [List.drop_of_length_le (by omega)]
    exact List.not_mem_nil
  rw [List.append_cons, pushAll_append, pushAll_append_marker hP hs hq, hv, if_neg (by simp),
    pushAll_of_no_late_marker hP (n := 0) rfl hquiet (by omega), Nat.zero_add]

/-- No push of them is a FRAME result. -/
theorem result_pushAll_take_lost (hP : P.legal) (hs : s.fr.flen = 0#9) (hq : Accumulates P q)
    (hv : (validate P (q ++ [P.marker])).outcome = .lengthError) (hr : r.length ≤ 2) (hn : 0 < n) :
    (pushAll P ((q ++ P.marker :: r).take n) s).fr.result ≠ .frame := by
  rcases Nat.lt_or_ge q.length n with h | h
  · obtain ⟨k, rfl⟩ : ∃ k, n = q.length + (k + 1) := ⟨n - q.length - 1, by omega⟩
    have htake : (r.take k).length ≤ 2 := (List.length_take_le' k r).trans hr
    rw [List.take_length_add_append, List.take_succ_cons, pushAll_lost hP hs hq hv htake]
    dsimp only
    split_ifs <;> simp
  · rw [List.take_append_of_le_length h, result_pushAll_take hP hs hq hn]
    simp

/-! ### Delivery and alignment -/

/-- Settles O46: a frame is delivered by `pushAll_frame`, or cut at its first CRC byte that is a trigger. -/
theorem streamDeliversFramesWithoutCrcTriggers : Obligations.StreamDeliversFramesWithoutCrcTriggers := by
  intro P ident p s hP hf hs
  refine ⟨fun hc => ⟨fun n => result_pushAll_take_frame hP hf hc hs, ?_⟩, fun hc => ?_⟩
  · rw [pushAll_frame hP hf hc hs]
    refine ⟨rfl, rfl, fun i => ?_⟩
    simp [Memory.read?_writeBytes]
  · obtain ⟨q, r, hframe, hq, hr, hv⟩ := exists_lost_prefix hP hf hc
    have hr2 : r.length ≤ 2 := by rw [hr]; split_ifs <;> omega
    have hne : r ≠ [] := List.ne_nil_of_length_pos (by rw [hr]; split_ifs <;> omega)
    rw [hframe, pushAll_lost hP hs hq hv hr2, if_neg hne, hr]
    refine ⟨fun n hn _ => result_pushAll_take_lost hP hs hq hv hr2 hn, ?_, rfl, rfl⟩
    split_ifs <;> rfl

/-- Settles O47, by induction on the frames before the last: each leaves the accumulation empty and FAVAIL set. -/
theorem backToBackFramesStayAligned : Obligations.BackToBackFramesStayAligned := by
  intro P fs ident p s hP hframes hs
  induction fs generalizing s with
  | nil =>
    obtain ⟨hf, hc⟩ := hframes (ident, p) (by simp)
    simp only [List.nil_append, List.flatMap_singleton]
    rw [pushAll_frame hP hf hc hs]
    exact ⟨by simp [FrStatusReg.delivered], rfl, Memory.holds_writeBytes _ _ _⟩
  | cons g fs ih =>
    obtain ⟨hf, hc⟩ := hframes g (by simp)
    have hrest := ih (pushAll P (frame P g.1 g.2) s) fun f h => hframes f (List.mem_cons_of_mem g h)
    rw [List.cons_append, List.flatMap_cons, pushAll_append]
    rw [pushAll_frame hP hf hc hs] at hrest ⊢
    obtain ⟨hfr, hinfo, hrxp⟩ := hrest rfl
    refine ⟨?_, hinfo, hrxp⟩
    rw [hfr]
    simp

/-- Settles O39: the six commands push the frame of identifier 0x02 and no payload, which `pushAll_frame` delivers. -/
theorem sixPushesDeliverTheEmptyFrame : Obligations.SixPushesDeliverTheEmptyFrame := by
  have hframable : Framable Config.hw 0x02#8 [] := ⟨by decide, by decide, by decide⟩
  have hpush := pushAll_frame (s := State.reset) hw_legal hframable (by simp [crcTriggers]) rfl
  refine ⟨{ pushAll Config.hw (frame Config.hw 0x02#8 []) State.reset with response := some .writeDone }, rfl, ?_⟩
  rw [hpush]
  decide

end Sys2Proof.Machine
end

section
/-! PROOFS. What a command reports (spec/60_exceptions.md R210 to R213): every command and every step answers a next
state, UNKNOWN_ERROR stands for a caller error, and a failure changes only the reports. -/

namespace Sys2Proof.Machine

open Sys2Proof.Safety

variable {P : Params} {i : Instr} {s t : State}

/-! ### Every step answers a next state -/

/-- An agent's step answers a next state and leaves the steps still to come as they are, whether or not its access
reaches the block (R210, R214). -/
theorem agentStep_answers_next (e : Event) (s : State) : ∃ t, agentStep e s = .next t ∧ t.inputs = s.inputs := by
  cases e with
  | hostRead width at_ =>
    obtain ⟨r, k, hread, -⟩ := hostRead_frame width at_ s
    exact ⟨_, rfl, by rw [hread]⟩
  | hostWrite width at_ v =>
    rcases hostWrite_cases width at_ v s with ⟨-, h⟩ | ⟨off, -, -, h⟩ | ⟨-, -, h⟩ | ⟨off, -, -, -, h⟩
    · exact ⟨_, h, rfl⟩
    · exact ⟨_, h, rfl⟩
    · obtain ⟨t, ht, hinputs, -⟩ := exec_answers_next (decode v) (s.respond (some .writeDone))
      exact ⟨t, h.trans ht, hinputs⟩
    · obtain ⟨m, hwrite, -⟩ := writePlace_frame Config.hw v (s.respond (some .writeDone)) (placeAt off)
      exact ⟨_, h, by rw [hwrite]; rfl⟩
  | portByte b =>
    obtain ⟨-, -, -, -, -, hinputs, -⟩ := push_frame Config.hw b s
    exact ⟨_, rfl, hinputs⟩
  | reset => exact ⟨_, rfl, rfl⟩

/-- Settles O7: a step with no event waiting changes nothing, and every other step is an agent's. -/
theorem everyStepAnswersANextState : Obligations.EveryStepAnswersANextState := by
  refine ⟨fun i s => (exec_answers_next i s).imp fun _ h => h.1, fun s => ?_⟩
  cases hs : s.inputs with
  | nil => exact ⟨s, step_of_nil hs, hs⟩
  | cons e rest =>
    rw [step_of_cons hs]
    exact agentStep_answers_next e { s with inputs := rest }

/-! ### UNKNOWN_ERROR -/

theorem checksumRefusesArgs_iff (P : Params) (len : Nat) (pabs : Bool) :
    checksumRefusesArgs P len pabs = true ↔ pabs = false ∧ len > P.maxFrameLen := by
  simp [checksumRefusesArgs]

/-- CHECKSUM reports UNKNOWN_ERROR exactly where it refuses its arguments (R113). -/
theorem checksumCommand_unknownError_iff (P : Params) (len : Nat) (pabs chain : Bool) (s : State) :
    (checksumCommand P len pabs chain s).status.outcome = .unknownError ↔ checksumRefusesArgs P len pabs = true := by
  rcases checksumCommand_cases P len pabs chain s with ⟨rfl, h⟩ | ⟨hr, h⟩ | ⟨-, hr, h⟩ <;> rw [h]
  · simp [checksumRefusesArgs]
  · simp [hr]
  · simp [hr]

/-- VALIDATE reports UNKNOWN_ERROR exactly where it refuses its arguments: the validator itself never does (R140). -/
theorem validateCommand_unknownError_iff (P : Params) (len : Nat) (pabs : Bool) (s : State) :
    (validateCommand P len pabs s).status.outcome = .unknownError ↔ validateRefusesArgs P len pabs = true := by
  rcases validateCommand_cases P len pabs s with ⟨hr, h⟩ | ⟨hr, h⟩ <;> rw [h]
  · simp [hr]
  · simp [hr, validate_outcome_ne_unknownError]

/-- ENCODE reports UNKNOWN_ERROR exactly where it refuses its arguments (R161). -/
theorem encodeCommand_unknownError_iff (P : Params) (ident : Byte) (len : Nat) (pabs dabs : Bool) (s : State) :
    (encodeCommand P ident len pabs dabs s).status.outcome = .unknownError ↔
      encodeRefusesArgs P len pabs dabs = true := by
  rcases encodeCommand_cases P ident len pabs dabs s with ⟨hr, h⟩ | ⟨hr, h⟩ <;> rw [h] <;> simp [hr]

/-- Settles O48: the commands with arguments report UNKNOWN_ERROR where they refuse them, and the reserved opcodes
always. -/
theorem unknownErrorMeansACallerError : Obligations.UnknownErrorMeansACallerError := by
  refine ⟨fun len chain s => ⟨_, rfl, rfl, rfl⟩, fun i s hu => ?_⟩
  obtain ⟨t, ht, -⟩ := exec_answers_next i s
  refine ⟨t, ht, ?_⟩
  rcases exec_cases ht with ⟨len, pabs, chain, rfl, rfl⟩ | ⟨len, pabs, rfl, rfl⟩ | ⟨ident, len, pabs, dabs, rfl, rfl⟩ |
    ⟨b, rfl, rfl⟩ | ⟨rfl, rfl⟩ | ⟨rfl, rfl⟩ | ⟨hi, rfl⟩
  · rw [checksumCommand_unknownError_iff, checksumRefusesArgs_iff]
    simp [reservedCommands]
  · rw [validateCommand_unknownError_iff, validateRefusesArgs_iff]
    simp [reservedCommands, -Bool.exists_bool]
  · rw [encodeCommand_unknownError_iff, encodeRefusesArgs_iff]
    simp [reservedCommands, -Bool.exists_bool]
  · cases hu
  · cases hu
  · cases hu
  · simp [hi]

/-! ### Failures -/

/-- A command of the command unit that ends in no VALID outcome only reports UNKNOWN_ERROR, or is VALIDATE (R213). -/
theorem exec_of_failed (hu : commandUnit i = true) (h : exec i s = .next t) (hf : t.status.outcome ≠ .valid) :
    t = s.report i.opc .unknownError ∨ ∃ len pabs, i = .validate len pabs := by
  rcases exec_cases h with ⟨len, pabs, chain, rfl, rfl⟩ | ⟨len, pabs, rfl, -⟩ | ⟨ident, len, pabs, dabs, rfl, rfl⟩ |
    ⟨b, rfl, -⟩ | ⟨rfl, -⟩ | ⟨rfl, -⟩ | ⟨-, rfl⟩
  · left
    rcases checksumCommand_cases Config.hw len pabs chain s with ⟨-, hc⟩ | ⟨-, hc⟩ | ⟨-, -, hc⟩ <;> rw [hc] at hf ⊢
    · exact absurd rfl hf
    · rfl
    · exact absurd rfl hf
  · exact .inr ⟨len, pabs, rfl⟩
  · left
    rcases encodeCommand_cases Config.hw ident len pabs dabs s with ⟨-, hc⟩ | ⟨-, hc⟩ <;> rw [hc] at hf ⊢
    · rfl
    · exact absurd rfl hf
  · cases hu
  · cases hu
  · cases hu
  · exact .inl rfl

/-- A push whose result is ERROR delivers nothing, and empties the accumulation (R185, R186). -/
theorem push_of_error {b : Byte} (h : (push P b s).fr.result = .error) :
    (push P b s).rxp = s.rxp ∧ (push P b s).rxpInfo = s.rxpInfo ∧ (push P b s).fr.flen = 0#9 := by
  rcases push_cases P b s with ⟨-, hp⟩ | ⟨-, -, hp⟩ | ⟨-, -, hp⟩ <;> rw [hp] at h ⊢
  · rcases trigger_cases P (s.fr.flen.toNat + 1) (appended b s) with ⟨-, ht⟩ | ⟨-, ht⟩ <;> rw [ht] at h ⊢
    · cases h
    · exact ⟨rfl, rfl, rfl⟩
  · exact ⟨rfl, rfl, rfl⟩
  · cases h

/-- Settles O49: a failed command is a report or a VALIDATE, which writes no buffer and no length register; a failed
push delivers nothing. -/
theorem failuresChangeOnlyTheReports : Obligations.FailuresChangeOnlyTheReports := by
  intro i s
  obtain ⟨t, ht, -⟩ := exec_answers_next i s
  refine ⟨t, ht, fun hu hf => ?_, ?_⟩
  · rcases exec_of_failed hu ht hf with rfl | ⟨len, pabs, rfl⟩
    · exact ⟨rfl, rfl, rfl, rfl, rfl, rfl, rfl, fun _ => rfl⟩
    · cases ht
      rcases validateCommand_cases Config.hw len pabs s with ⟨-, h⟩ | ⟨-, h⟩ <;> rw [h] <;>
        exact ⟨rfl, rfl, rfl, rfl, rfl, rfl, rfl, fun hne => absurd rfl (hne len pabs)⟩
  · rintro b rfl herror
    cases ht
    obtain ⟨hstatus, hcrc, hlen, hibuf, hobuf, -⟩ := push_frame Config.hw b s
    obtain ⟨hrxp, hinfo, hflen⟩ := push_of_error herror
    exact ⟨hibuf, hobuf, hlen, hrxp, hinfo, hstatus, hcrc, hflen⟩

end Sys2Proof.Machine
end

section
/-! PROOFS. The two units are independent (spec/60_exceptions.md R222). A command acts on its own unit alone: a state is
written as a state of one unit put into any state around it, and the command's effect as a change of that unit alone. -/

namespace Sys2Proof.Machine

open Sys2Proof.Safety

variable {i : Instr} {s t : State}

/-- The state `m` with the command unit of `u`, and its count of draws (R222; log entry 4). -/
def State.withCommandUnit (m u : State) : State :=
  { m with
    status := u.status, crcVal := u.crcVal, obufLen := u.obufLen, ibuf := u.ibuf, obuf := u.obuf, draws := u.draws }

/-- The state `m` with the frame synchroniser of `u`, and its count of draws (R222; log entry 4). -/
def State.withSynchroniser (m u : State) : State :=
  { m with fr := u.fr, rxpInfo := u.rxpInfo, rxp := u.rxp, fbuf := u.fbuf, draws := u.draws }

theorem withCommandUnit_of_same (h : SameCommandUnit s t) : t.withCommandUnit s = t := by
  obtain ⟨hstatus, hcrc, hlen, hibuf, hobuf, hdraws⟩ := h
  rw [State.withCommandUnit, hstatus, hcrc, hlen, hibuf, hobuf, hdraws]

theorem withSynchroniser_of_same (h : SameSynchroniser s t) : t.withSynchroniser s = { t with draws := s.draws } := by
  obtain ⟨hfr, hinfo, hrxp, hfbuf⟩ := h
  rw [State.withSynchroniser, hfr, hinfo, hrxp, hfbuf]

/-! ### The command unit -/

theorem checksumCommand_withCommandUnit (P : Params) (len : Nat) (pabs chain : Bool) (m s : State) :
    checksumCommand P len pabs chain (m.withCommandUnit s) =
      m.withCommandUnit (checksumCommand P len pabs chain s) := by
  unfold checksumCommand
  split_ifs <;> rfl

theorem validateCommand_withCommandUnit (P : Params) (len : Nat) (pabs : Bool) (m s : State) :
    validateCommand P len pabs (m.withCommandUnit s) = m.withCommandUnit (validateCommand P len pabs s) := by
  unfold validateCommand
  split_ifs <;> rfl

theorem encodeCommand_withCommandUnit (P : Params) (ident : Byte) (len : Nat) (pabs dabs : Bool) (m s : State) :
    encodeCommand P ident len pabs dabs (m.withCommandUnit s) =
      m.withCommandUnit (encodeCommand P ident len pabs dabs s) := by
  unfold encodeCommand
  split_ifs <;> rfl

/-- A command of the command unit acts on that unit alone, whatever stands around it. -/
theorem exec_commandUnit_local (hu : commandUnit i = true) (s : State) :
    ∃ u, ∀ m : State, exec i (m.withCommandUnit s) = .next (m.withCommandUnit u) := by
  obtain ⟨u, h, -⟩ := exec_answers_next i s
  rcases exec_cases h with ⟨len, pabs, chain, rfl, -⟩ | ⟨len, pabs, rfl, -⟩ | ⟨ident, len, pabs, dabs, rfl, -⟩ |
    ⟨b, rfl, -⟩ | ⟨rfl, -⟩ | ⟨rfl, -⟩ | ⟨hi, -⟩
  · exact ⟨_, fun m => congrArg Host.Outcome.next (checksumCommand_withCommandUnit Config.hw len pabs chain m s)⟩
  · exact ⟨_, fun m => congrArg Host.Outcome.next (validateCommand_withCommandUnit Config.hw len pabs m s)⟩
  · exact ⟨_, fun m => congrArg Host.Outcome.next (encodeCommand_withCommandUnit Config.hw ident len pabs dabs m s)⟩
  · cases hu
  · cases hu
  · cases hu
  · exact ⟨s.report i.opc .unknownError, fun m => exec_reserved hi _⟩

/-! ### The frame synchroniser -/

theorem trigger_withSynchroniser (P : Params) (n : Nat) (m s : State) :
    trigger P n (m.withSynchroniser s) = m.withSynchroniser (trigger P n s) := by
  unfold trigger
  dsimp only [State.withSynchroniser]
  split_ifs <;> rfl

theorem push_withSynchroniser (P : Params) (b : Byte) (m s : State) :
    push P b (m.withSynchroniser s) = m.withSynchroniser (push P b s) := by
  unfold push
  dsimp only [State.withSynchroniser]
  split_ifs
  · exact trigger_withSynchroniser P _ m (appended b s)
  · rfl
  · rfl

/-- A command of the frame synchroniser acts on that unit alone, whatever stands around it. -/
theorem exec_synchroniser_local (hu : commandUnit i = false) (s : State) :
    ∃ u, ∀ m : State, exec i (m.withSynchroniser s) = .next (m.withSynchroniser u) := by
  obtain ⟨u, h, -⟩ := exec_answers_next i s
  rcases exec_synchroniser h with ⟨b, rfl, -⟩ | ⟨rfl, -⟩ | ⟨rfl, -⟩ | ⟨hu', -⟩
  · exact ⟨_, fun m => congrArg Host.Outcome.next (push_withSynchroniser Config.hw b m s)⟩
  · exact ⟨{ s with fr := s.fr.cleared }, fun _ => rfl⟩
  · exact ⟨{ s with fr := s.fr.acknowledged }, fun _ => rfl⟩
  · rw [hu] at hu'; cases hu'

/-- A trigger on written bytes does not depend on the count of draws, and leaves it as it is (R32). -/
theorem trigger_draws {P : Params} {n : Nat} (h : s.fbuf.covers n) (k : Nat) :
    trigger P n { s with draws := k } = { trigger P n s with draws := k } := by
  obtain ⟨f, rfl, hf, -⟩ := Memory.readRange_of_covers s.fbuf n s.draws h
  rw [trigger_of_holds hf, trigger_of_holds (s := { s with draws := k }) hf]
  split_ifs <;> rfl

theorem push_draws {P : Params} (b : Byte) (h : s.fbuf.covers s.fr.flen.toNat) (k : Nat) :
    push P b { s with draws := k } = { push P b s with draws := k } := by
  unfold push
  dsimp only
  split_ifs
  · exact trigger_draws (covers_appended b h) k
  · rfl
  · rfl

/-- Where every accumulated byte was written, a command of the frame synchroniser does not depend on the count of draws,
and leaves it as it is. -/
theorem exec_synchroniser_draws (hu : commandUnit i = false) (hc : s.fbuf.covers s.fr.flen.toNat)
    (h : exec i s = .next t) (k : Nat) : exec i { s with draws := k } = .next { t with draws := k } := by
  rcases exec_synchroniser h with ⟨b, rfl, rfl⟩ | ⟨rfl, rfl⟩ | ⟨rfl, rfl⟩ | ⟨hu', -⟩
  · exact congrArg Host.Outcome.next (push_draws b hc k)
  · rfl
  · rfl
  · rw [hu] at hu'; cases hu'

/-- Where every accumulated byte was written, a command of the frame synchroniser draws nothing. -/
theorem draws_of_exec_synchroniser (hu : commandUnit i = false) (hc : s.fbuf.covers s.fr.flen.toNat)
    (h : exec i s = .next t) : t.draws = s.draws := by
  have hkept : t = { t with draws := s.draws } :=
    Host.Outcome.next.inj (h.symm.trans (exec_synchroniser_draws hu hc h s.draws))
  rw [hkept]

/-! ### Independence -/

/-- Settles O51: each unit's command acts on its unit alone, so two states that agree on the unit get the same unit. -/
theorem unitsDoNotInterfere : Obligations.UnitsDoNotInterfere := by
  intro i s s'
  cases hu : commandUnit i with
  | true =>
    obtain ⟨u, hlocal⟩ := exec_commandUnit_local hu s
    obtain ⟨t', ht', -⟩ := exec_answers_next i s'
    refine ⟨s.withCommandUnit u, t', hlocal s, ht', fun _ => ⟨fun hsame => ?_, rfl, rfl, rfl, rfl⟩, nofun⟩
    have hnext := hlocal s'
    rw [withCommandUnit_of_same hsame, ht'] at hnext
    cases hnext
    exact ⟨rfl, rfl, rfl, rfl, rfl, rfl⟩
  | false =>
    obtain ⟨u, hlocal⟩ := exec_synchroniser_local hu s
    obtain ⟨t', ht', -⟩ := exec_answers_next i s'
    have hagree (hsame : SameSynchroniser s s') (hdraws : s.draws = s'.draws) : t' = s'.withSynchroniser u := by
      have hnext := hlocal s'
      rw [withSynchroniser_of_same hsame, hdraws] at hnext
      exact Host.Outcome.next.inj (ht'.symm.trans hnext)
    have hcovered (hsame : SameSynchroniser s s') (hc : s.fbuf.covers s.fr.flen.toNat) :
        t' = { s'.withSynchroniser u with draws := s'.draws } := by
      have hnext := exec_synchroniser_draws (s := s'.withSynchroniser s) hu hc (hlocal s') s'.draws
      rw [withSynchroniser_of_same hsame] at hnext
      exact Host.Outcome.next.inj (ht'.symm.trans hnext)
    refine ⟨s.withSynchroniser u, t', hlocal s, ht', nofun, fun _ => ⟨fun hsame h => ?_, fun hsame hdraws => ?_,
      fun hc => draws_of_exec_synchroniser hu hc (hlocal s), rfl, rfl, rfl, rfl, rfl⟩⟩
    · rcases h with hc | hdraws
      · rw [hcovered hsame hc]; exact ⟨rfl, rfl, rfl, rfl⟩
      · rw [hagree hsame hdraws]; exact ⟨rfl, rfl, rfl, rfl⟩
    · rw [hagree hsame hdraws]; rfl

/-- Settles O52: either order ends in the state with both units changed, the draws being the command unit's alone. -/
theorem sendingAndReceivingCommute : Obligations.SendingAndReceivingCommute := by
  intro i j s hi hj hc
  obtain ⟨c, hcommand⟩ := exec_commandUnit_local hi s
  obtain ⟨f, hsync⟩ := exec_synchroniser_local hj s
  have hdraws : f.draws = s.draws := draws_of_exec_synchroniser (t := s.withSynchroniser f) hj hc (hsync s)
  have hsame : SameCommandUnit s (s.withSynchroniser f) := ⟨rfl, rfl, rfl, rfl, rfl, hdraws.symm⟩
  refine ⟨s.withCommandUnit c, s.withSynchroniser f, (s.withSynchroniser f).withCommandUnit c, hcommand s, ?_,
    hsync s, ?_⟩
  · exact exec_synchroniser_draws (s := (s.withCommandUnit c).withSynchroniser s) hj hc (hsync _) c.draws
  · have hnext := hcommand (s.withSynchroniser f)
    rwa [withCommandUnit_of_same hsame] at hnext

end Sys2Proof.Machine
end

section
/-! PROOFS. Reset and the length limits (spec/70_reset_and_hazards.md R230, R243): what a reset step leaves, and a
declared length no buffer of this hardware has room for. -/

namespace Sys2Proof.Machine

variable {P : Params} {f : List Byte}

/-! ### Lengths above the limit -/

/-- A buffer in which the header's markers are right and the frame of the declared length does not fit fails the length
check (R133 to R135). -/
theorem validate_of_frame_too_long (hf : 6 ≤ f.length) (h0 : byteAt f 0 = P.marker) (h1 : byteAt f 1 ≠ P.marker)
    (hlen : f.length < frameLen (declaredLen f)) : validate P f = ⟨.lengthError, true, .length, none⟩ := by
  obtain ⟨_, m, ident, L, r, rfl, hnil⟩ := exists_append_three (r := f) (n := 0) (by omega)
  rw [List.length_eq_zero_iff.1 hnil, List.nil_append] at hf h0 h1 hlen ⊢
  obtain rfl : m = P.marker := h0
  simp only [List.length_cons, declaredLen_cons, frameLen_eq] at hf hlen
  exact validate_of_length (by omega) h1 (by omega)

/-- A buffer with no room for the frame of its declared length is not accepted (R135). -/
theorem validate_ne_valid_of_frame_too_long (hlen : f.length < frameLen (declaredLen f)) :
    (validate P f).outcome ≠ .valid := by
  intro hvalid
  obtain ⟨-, hfits, -⟩ := header_of_validate_valid hvalid
  exact Nat.not_lt.2 hfits hlen

/-- A frame with more than 252 payload bytes is longer than any buffer of this hardware (R243). -/
theorem maxFrameLen_lt_frameLen {L : Nat} (hL : 252 < L) : Config.hw.maxFrameLen < frameLen L := by
  have hcap : Config.hw.maxFrameLen = 258 := rfl
  rw [hcap, frameLen_eq]
  omega

/-- ENCODE of refused arguments changes STATUS only (R161). -/
theorem exec_encode_of_refused {len : Nat} {pabs dabs : Bool} (ident : Byte) (s : State)
    (hrefused : encodeRefusesArgs Config.hw len pabs dabs = true) :
    exec (.encode ident len pabs dabs) s = .next (s.report 0x3#4 .unknownError) := by
  rw [exec_encode, encodeCommand, if_pos hrefused]

/-- Settles O31: the frame of such a declared length does not fit the buffer, and such a payload is above ENCODE's
limit. -/
theorem declaredLengthsAbove252NeverValidate : Obligations.DeclaredLengthsAbove252NeverValidate := by
  refine ⟨fun f hf hL => ?_, fun ident len pabs dabs s hlen => ?_⟩
  · have hlong : f.length < frameLen (declaredLen f) := Nat.lt_of_le_of_lt hf (maxFrameLen_lt_frameLen hL)
    exact ⟨validate_ne_valid_of_frame_too_long hlong, fun hshort h0 h1 => validate_of_frame_too_long hshort h0 h1 hlong⟩
  · have hlimit : Config.hw.maxPayloadLen = 252 := rfl
    exact exec_encode_of_refused ident s ((encodeRefusesArgs_iff _ _ _ _).2 (.inr (.inr (hlimit ▸ hlen))))

/-! ### The reset step -/

/-- A reset step resets the block and leaves the steps still to come (R230). -/
theorem step_reset (s : State) (rest : List Event) :
    step { s with inputs := .reset :: rest } = .next (resetBlock { s with inputs := rest }) := by
  rw [step_of_cons (e := .reset) (rest := rest) rfl, agentStep]

/-- Settles O19: every register and buffer of the next state is the reset state's, whose images O20 lists. -/
theorem resetSetsEveryRegister : Obligations.ResetSetsEveryRegister := by
  intro s rest
  obtain ⟨hstatus, hcrc, hobufLen, hfr, hrxpInfo, -⟩ := resetStateHasTheListedValues
  exact ⟨resetBlock { s with inputs := rest }, step_reset s rest, hstatus, hcrc, hobufLen, hfr, hrxpInfo,
    fun _ => ⟨rfl, rfl, rfl, rfl⟩, rfl⟩

end Sys2Proof.Machine
end
